-- ==== Sys2Proof/Word.lean ====
section
/-! DEFINITION. The word types of CP-CORE: plain bit vectors of the widths the spec names (R11). -/

namespace Sys2Proof

/-- `u32`, the width of most registers, of an operand and of a response. -/
abbrev Word := BitVec 32

/-- A 16-bit hue (R15). -/
abbrev Half := BitVec 16

/-- `u8`: a saturation, a value, a decay counter. -/
abbrev Byte := BitVec 8

/-- A fix16 of R13: a signed 32-bit two's-complement word whose value is the integer over 65536. -/
abbrev Fix16 := BitVec 32

/-- One command word of the command port, 40 bits (R80). -/
abbrev CmdWord := BitVec 40

end Sys2Proof
end

