-- ==== Sys2Proof/Syntax.lean ====
section
/-! DEFINITION. The commands of CP-CORE, one constructor per row of the opcode map (R85), with the operands of R84. -/

namespace Sys2Proof

/-- The nine commands. Every operand has exactly the width of its field, so no value of this type lies outside the
encoding; operands that are encodable but select nothing (modes 6 and 7, channels 2 to 15, unimplemented register
numbers) are defined encodings (R88) and stay. -/
inductive Instr where
  /-- `ANIM_INIT` (R100) -/
  | animInit
  /-- `ANIM_SET_MODE mode` (R101, R102) -/
  | animSetMode (mode : BitVec 3)
  /-- `ANIM_STEP` (R110) -/
  | animStep
  /-- `TWEAK_SET_LFO x` (R103) -/
  | tweakSetLfo (x : Fix16)
  /-- `TWEAK_SET_EN castor, pollux` (R104) -/
  | tweakSetEn (castor pollux : Bool)
  /-- `PULSE_INIT` (R140) -/
  | pulseInit
  /-- `PULSE_SET_PERIOD ch, period` (R147, R148) -/
  | pulseSetPeriod (ch : BitVec 4) (period : Word)
  /-- `PULSE_SET_HARD_SYNC e` (R150) -/
  | pulseSetHardSync (e : Bool)
  /-- `RDREG n` (R160, R161) -/
  | rdreg (n : BitVec 8)
  deriving DecidableEq, Repr

end Sys2Proof
end

