-- ==== Sys2Proof/Decode.lean ====
section
/-! DEFINITION. The decoder, total on all 2^40 words (R86), and the encoder, from the fields of R80, R83 and R84. -/

namespace Sys2Proof

/-- Why a word is a reserved encoding (R87): it is executed as a no-op, not refused. -/
inductive Reserved where
  /-- `op` is one of 0x0, 0x6, 0x7, 0xB to 0xE -/
  | opcode (op : BitVec 4)
  /-- a defined `op` whose must-be-zero bits are not all zero -/
  | mustBeZero (op : BitVec 4)
  deriving DecidableEq, Repr

/-- `op = W[39:36]` (R80). -/
def opField (w : CmdWord) : BitVec 4 := w.extractLsb' 36 4

/-- `sel = W[35:32]` (R80). -/
def selField (w : CmdWord) : BitVec 4 := w.extractLsb' 32 4

/-- `imm = W[31:0]` (R80). -/
def immField (w : CmdWord) : Word := w.extractLsb' 0 32

/-- The command if the must-be-zero bits are zero, otherwise the reserved encoding of R87. -/
def orReserved (w : CmdWord) (mbzClear : Bool) (i : Instr) : Except Reserved Instr :=
  if mbzClear then .ok i else .error (.mustBeZero (opField w))

/-- Format Z: no operand, `sel` and `imm` must be zero (R83). -/
def formatZ (w : CmdWord) (i : Instr) : Except Reserved Instr :=
  orReserved w (selField w == 0 && immField w == 0) i

/-- Format I: `sel` and the bits of `imm` from `width` up must be zero (R83, R84). -/
def formatI (w : CmdWord) (width : Nat) (i : Instr) : Except Reserved Instr :=
  orReserved w (selField w == 0 && immField w >>> width == 0) i

/-- Decoding of R86: at most one row matches, and a word that matches none is reserved. -/
def decode (w : CmdWord) : Except Reserved Instr :=
  let imm := immField w
  match opField w with
  | 0x1#4 => formatZ w .animInit
  | 0x2#4 => formatI w 3 (.animSetMode (imm.extractLsb' 0 3))
  | 0x3#4 => formatZ w .animStep
  | 0x4#4 => formatI w 32 (.tweakSetLfo imm)
  | 0x5#4 => formatI w 2 (.tweakSetEn (imm.getLsbD 0) (imm.getLsbD 1))
  | 0x8#4 => formatZ w .pulseInit
  | 0x9#4 => .ok (.pulseSetPeriod (selField w) imm)
  | 0xA#4 => formatI w 1 (.pulseSetHardSync (imm.getLsbD 0))
  | 0xF#4 => formatI w 8 (.rdreg (imm.extractLsb' 0 8))
  | op => .error (.opcode op)

/-- The word of three fields, `{op, sel, imm}` (R80). -/
def wordOf (op sel : BitVec 4) (imm : Word) : CmdWord := op ++ sel ++ imm

/-- The word of a command, from the encodings of R100 to R160 (R83, R84, R85). -/
def encode : Instr → CmdWord
  | .animInit => wordOf 0x1 0 0
  | .animSetMode mode => wordOf 0x2 0 (mode.setWidth 32)
  | .animStep => wordOf 0x3 0 0
  | .tweakSetLfo x => wordOf 0x4 0 x
  | .tweakSetEn castor pollux =>
      wordOf 0x5 0 ((BitVec.ofBool pollux ++ BitVec.ofBool castor).setWidth 32)
  | .pulseInit => wordOf 0x8 0 0
  | .pulseSetPeriod ch period => wordOf 0x9 ch period
  | .pulseSetHardSync e => wordOf 0xA 0 ((BitVec.ofBool e).setWidth 32)
  | .rdreg n => wordOf 0xF 0 (n.setWidth 32)

/-- The 40-bit word of an instruction given as a number with bit 0 least significant: `nbits` bits of it are given and
those above are zero. The port takes the word whole, so there is no byte order to choose (R64, R80; log 16). -/
def tableWord (nbits w : Nat) : CmdWord := BitVec.ofNat 40 (w % 2 ^ nbits)

/-- What the decoder reads from an instruction numbered as spec/opcode_table.json numbers it. -/
def decodeTableWord (nbits w : Nat) : Option Instr := (decode (tableWord nbits w)).toOption

end Sys2Proof
end

