-- ==== Sys2Proof/Config.lean ====
section
/-! DEFINITION. What an implementation fixes (the OPEN parameters of R9 and the collaborator functions of R15, R16),
and the free values: the draws and the moves that the spec leaves to the outside. -/

namespace Sys2Proof

/-- One of the two timer channels (R22: "`c` is the channel, 0 or 1"). -/
inductive Chan where
  | ch0
  | ch1
  deriving DecidableEq, Repr, Inhabited

/-- The two kinds of acknowledge event (R183). -/
inductive AckKind where
  | swrst
  | enable
  deriving DecidableEq, Repr, Inhabited

/-- One move of an agent of R8, or of an input: which one moves next is free (R8, R176). -/
inductive Event where
  /-- the host: a command when the port is open, a micro-step of the bring-up when it is not (R8, R141) -/
  | host
  /-- one count of a timer channel (R180) -/
  | timer (c : Chan)
  /-- the acknowledge event of a channel (R183) -/
  | ack (c : Chan) (k : AckKind)
  /-- the overflow interrupt handler (R175) -/
  | handler
  /-- the reset input is asserted and released (R200) -/
  | reset
  /-- the tick input takes the value `t` (R14) -/
  | now (t : Word)
  /-- the host decides on one more command, behind those it still has to issue (R7) -/
  | issue (w : CmdWord)
  deriving DecidableEq, Repr, Inhabited

/-- The build-time parameters of R9 with their constraints, and the pure functions of the collaborators (R15, R16)
with the sine's contract. The defaults below only show Lean that such a record exists: `Config.board` has no body, so
no proof can see a value of it (log 5, 6). -/
structure Board where
  /-- `N_PIXELS`, 1 to `MAX_PIXELS` = 7 (R9, R128) -/
  nPixels : Nat := 7
  nPixels_pos : 1 ≤ nPixels := by decide
  nPixels_le : nPixels ≤ 7 := by decide
  /-- `ANIM_INTERVAL`, at least 1, compared with the 32-bit `delta` (R9, R111) -/
  animInterval : Word := 1
  animInterval_pos : 1 ≤ animInterval.toNat := by decide
  /-- `HUE_OFFSET[0..6]` -/
  hueOffset : Vector Half 7 := Vector.replicate 7 0
  transHueNormal : Half := 0
  transHueLfoPwm : Half := 0
  transHueLfoFm : Half := 0
  transHueHardSync : Half := 0
  /-- `TWEAK_CASTOR_COLOR`, not zero -/
  castorColor : Word := 1
  castorColor_ne : castorColor ≠ 0 := by decide
  /-- `TWEAK_POLLUX_COLOR`, not zero -/
  polluxColor : Word := 1
  polluxColor_ne : polluxColor ≠ 0 := by decide
  /-- `PER_PLACEHOLDER`, not zero -/
  perPlaceholder : Word := 1
  perPlaceholder_ne : perPlaceholder ≠ 0 := by decide
  /-- `CFG_DIV[c]` -/
  cfgDiv : Chan → BitVec 3 := fun _ => 0
  /-- `CFG_PIN[c]`: no rule reads it (R9) -/
  cfgPin : Chan → Nat := fun _ => 0
  /-- `CFG_OC[c]`: no rule reads it (R9) -/
  cfgOc : Chan → Nat := fun _ => 0
  /-- `OVF_IRQ_PRIORITY`: no rule reads it (R9, R173) -/
  ovfIrqPriority : Nat := 0
  /-- `RETRIGGER_UPDATES`, the switch of R182 -/
  retriggerUpdates : Bool := false
  /-- `IRQ_LATENCY_MAX`, where a bound is given: counts of channel 1 before the handler (R9, R179; log 12) -/
  irqLatencyMax : Option Nat := none
  /-- `sine_norm` (R16) -/
  sineNorm : Fix16 → Fix16 := fun _ => 0
  /-- SINE_RANGE of R16: from 0 to `FX_ONE` -/
  sine_range : ∀ x, (sineNorm x).toNat ≤ 0x10000 := by intro x; exact Nat.zero_le _
  /-- SINE_PERIOD of R16: only the 16 fraction bits count -/
  sine_period : ∀ x y : Fix16, x.setWidth 16 = y.setWidth 16 → sineNorm x = sineNorm y := by intros; rfl
  /-- `hsv(h, s, v)` (R15): no rule looks inside the packed word -/
  hsv : Half → Byte → Byte → Word := fun _ _ _ => 0
  deriving Inhabited

/-- The named premise HSV_NONBLACK of R15: "`v != 0 -> hsv(h, s, v) != 0`". -/
def Board.HsvNonblack (b : Board) : Prop :=
  ∀ h s v, v ≠ 0 → b.hsv h s v ≠ 0

/-- The block as it is built: every OPEN parameter of R9 and both collaborator functions, all free (log 5, 6). -/
opaque Config.board : Board

/-- Free value (R17, U10): the `n`-th word of the random generator that `State.env.draws` does not supply (log 4). -/
opaque Config.freeDraw : Nat → Word

/-- Free value (R8, R176, U17): the `n`-th move that `State.env.events` does not supply (log 1). -/
opaque Config.freeEvent : Nat → Event

end Sys2Proof
end

