-- ==== Sys2Proof/Machine/State.lean ====
section
/-! DEFINITION. The state of CP-CORE: every register of R22, the two sub-blocks apart (R3: they share nothing), and the
block's ports as plain data. -/

namespace Sys2Proof.Machine

/-- The closed set of operating modes (R23, R89). Codes 6 and 7 "can never be held", so they have no constructor
(log 9). -/
inductive Mode where
  | normal
  | lfoPwm
  | lfoFm
  | hardSync
  | calibration
  | flagTweak
  deriving DecidableEq, Repr

/-- The registers that `RDREG` reads, by the names of R22. -/
inductive RegName where
  | mode
  | lastUpdate
  | phase
  | hueAcc
  | transitioning
  | tweakLfo
  | tweakEn
  | decay (i : Fin 7)
  | px (i : Fin 7)
  | hardSync
  | pinitState
  | intflag
  | inten
  | clkctrl
  | ctrl (c : Chan)
  | syncbusy (c : Chan)
  | per (c : Chan)
  | perb (c : Chan)
  | cc (c : Chan)
  | ccb (c : Chan)
  | count (c : Chan)
  | pinstat (c : Chan)
  deriving DecidableEq, Repr

/-- The registers of the animation step engine (R23 to R33). -/
structure Ase where
  /-- `MODE` -/
  mode : Mode
  /-- `LAST_UPDATE` -/
  lastUpdate : Word
  /-- `PHASE`, a fix16: the phase of normal rendering and the progress of a transition (R25) -/
  phase : Fix16
  /-- `HUE_ACC`, a 32-bit register that never exceeds 65535 (R26) -/
  hueAcc : Word
  /-- `TRANSITIONING` -/
  transitioning : Bool
  /-- `TWEAK_LFO`, a fix16 -/
  tweakLfo : Fix16
  /-- `TWEAK_EN` bit 0, castor_enabled -/
  tweakCastor : Bool
  /-- `TWEAK_EN` bit 1, pollux_enabled -/
  tweakPollux : Bool
  /-- `DECAY[0..6]` -/
  decay : Vector Byte 7
  /-- `PX[0..6]`, the pixel mirror (R33) -/
  px : Vector Word 7
  deriving DecidableEq, Repr

/-- The registers of one timer channel, with its bit of `CLKCTRL` and its pin (R38 to R46). -/
structure Channel where
  /-- `CLKCTRL.CLK_EN[c]` -/
  clkEn : Bool
  /-- `CTRL[c]` bit 0, ENABLE -/
  enable : Bool
  /-- `CTRL[c]` bit 1, WAVE -/
  wave : Bool
  /-- `CTRL[c]` bits 4:2, PRESC -/
  presc : BitVec 3
  /-- `SYNCBUSY[c]` bit 0, SWRST -/
  swrstBusy : Bool
  /-- `SYNCBUSY[c]` bit 1, ENABLE -/
  enableBusy : Bool
  /-- `PINSTAT[c]` bit 0, PMUX -/
  pmux : Bool
  /-- `PER[c]`, live -/
  per : Word
  /-- `PERB[c]`, buffered -/
  perb : Word
  /-- `CC[c]`, live -/
  cc : Word
  /-- `CCB[c]`, buffered -/
  ccb : Word
  /-- `COUNT[c]` -/
  count : Word
  deriving DecidableEq, Repr

/-- The registers of the PWM hard-sync coupler (R34 to R46). -/
structure Hsc where
  /-- `HARD_SYNC` -/
  hardSync : Bool
  /-- `PINIT_STATE`: the micro-step that runs next, 0 = IDLE (R35) -/
  pinitState : BitVec 4
  /-- `INTFLAG.OVF0` -/
  intflag : Bool
  /-- `INTEN.OVF0` -/
  inten : Bool
  /-- `CLKCTRL` bit 2, GCLK_EN -/
  gclkEn : Bool
  ch0 : Channel
  ch1 : Channel
  deriving DecidableEq, Repr

/-- One output event (R18). -/
inductive OutEvent where
  /-- "set pixel `i` to `c`" -/
  | pxWrite (i : Nat) (c : Word)
  /-- "flush buffer to the physical strip" -/
  | flush
  deriving DecidableEq, Repr

/-- The ports of the block and what the outside has in store for it. `rsp`, `now` and `out` are ports of the spec; the
other fields are the model's own (log 1, 2, 4, 12). -/
structure Env where
  /-- the response of the last command; none while a command is in progress (R81, R82; log 7) -/
  rsp : Option Word
  /-- the present value of the tick input (R14; log 3) -/
  now : Word
  /-- every output event so far, oldest first (R18; log 7) -/
  out : List OutEvent
  /-- the command words the host has still to issue, the next one first (R7; log 2) -/
  cmds : List CmdWord
  /-- the moves still to come, the next one first (R8; log 1) -/
  events : List Event
  /-- how many free moves have been taken after the list (log 1) -/
  turn : Nat
  /-- the words the random generator still has in store, the next one first (R17; log 4) -/
  draws : List Word
  /-- how many free draws have been taken after the list (log 4) -/
  drawn : Nat
  /-- how many counts channel 1 has taken since the overflow that set the pending flag (R179; log 12) -/
  waited : Nat
  deriving DecidableEq, Repr

/-- The state of the machine: the two sub-blocks and the ports. -/
structure State where
  ase : Ase
  hsc : Hsc
  env : Env
  deriving DecidableEq, Repr

/-- There is no fault: "No command can fault, trap or return an error" (R170), and R171 names what stands in the place
of each. So the type has no constructor; nothing raises one. -/
inductive Fault where
  deriving DecidableEq, Repr

/-- Why a command would have no meaning in the model. -/
inductive Refusal where
  /-- a command the model gives no meaning yet: raised by an arm of `exec` and by nothing else, and by no arm now. Safe:
  the machine stops where the hardware goes on. -/
  | notModelled (mnemonic : String)
  deriving DecidableEq, Repr

/-- The ASE after reset: all zero (R51). -/
def Ase.reset : Ase where
  mode := .normal
  lastUpdate := 0
  phase := 0
  hueAcc := 0
  transitioning := false
  tweakLfo := 0
  tweakCastor := false
  tweakPollux := false
  decay := Vector.replicate 7 0
  px := Vector.replicate 7 0

/-- A timer channel after reset: all zero (R51). -/
def Channel.reset : Channel where
  clkEn := false
  enable := false
  wave := false
  presc := 0
  swrstBusy := false
  enableBusy := false
  pmux := false
  per := 0
  perb := 0
  cc := 0
  ccb := 0
  count := 0

/-- The HSC after reset: all zero (R51). -/
def Hsc.reset : Hsc where
  hardSync := false
  pinitState := 0
  intflag := false
  inten := false
  gclkEn := false
  ch0 := Channel.reset
  ch1 := Channel.reset

/-- The ports when the model starts. DESIGN CHOICE (log 1 to 4, 7, 12), unsafe for a claim that rests on one of these values:
the spec resets none of them. -/
def Env.reset : Env where
  rsp := none
  now := 0
  out := []
  cmds := []
  events := []
  turn := 0
  draws := []
  drawn := 0
  waited := 0

/-- The machine right after reset (R51, R200, R202). -/
def State.reset : State where
  ase := Ase.reset
  hsc := Hsc.reset
  env := Env.reset

end Sys2Proof.Machine
end

