-- ==== Sys2Proof/Machine/Flags.lean ====
section
/-! DEFINITION. The status bits. CP-CORE has no condition codes and no arithmetic sets a flag (R49); what there is are the
output level, the enabling conditions of the agents, and the layout of the bits in the registers that `RDREG` reads. -/

namespace Sys2Proof.Machine

/-- `pwm_out[c]` (R47). -/
def Channel.pwmOut (ch : Channel) : Bool :=
  ch.pmux && ch.enable && ch.wave && decide (ch.count < ch.cc)

/-- The channel with index `c`. -/
def Hsc.chan (h : Hsc) : Chan → Channel
  | .ch0 => h.ch0
  | .ch1 => h.ch1

/-- `CLK_EN[c]` and `GCLK_EN`: without both a channel neither counts nor acknowledges (R38). -/
def Hsc.clocked (h : Hsc) (c : Chan) : Bool := (h.chan c).clkEn && h.gclkEn

/-- When a tick of channel `c` is enabled (R180). -/
def Hsc.timerEnabled (h : Hsc) (c : Chan) : Bool := (h.chan c).enable && h.clocked c

/-- When the interrupt handler is enabled (R175). -/
def Hsc.handlerEnabled (h : Hsc) : Bool := h.intflag && h.inten

/-- The `SYNCBUSY` bit that an acknowledge of kind `k` clears (R183). -/
def Channel.busy (ch : Channel) : AckKind → Bool
  | .swrst => ch.swrstBusy
  | .enable => ch.enableBusy

/-- When the acknowledge event of channel `c` and kind `k` is enabled (R183). -/
def Hsc.ackEnabled (h : Hsc) (c : Chan) (k : AckKind) : Bool := h.clocked c && (h.chan c).busy k

/-- `cmd_ready`: the port is closed while a bring-up is in progress (R82, R144). -/
def Hsc.portOpen (h : Hsc) : Bool := h.pinitState == 0

/-- A one-bit flag as a register value, zero-extended (R160). -/
def flagWord (b : Bool) : Word := (BitVec.ofBool b).setWidth 32

/-- `TWEAK_EN`: pollux in bit 1, castor in bit 0 (R29). -/
def Ase.tweakEn (a : Ase) : BitVec 2 := BitVec.ofBool a.tweakPollux ++ BitVec.ofBool a.tweakCastor

/-- `CLKCTRL`: GCLK_EN in bit 2, CLK_EN[1] in bit 1, CLK_EN[0] in bit 0 (R38). -/
def Hsc.clkctrl (h : Hsc) : BitVec 3 :=
  BitVec.ofBool h.gclkEn ++ BitVec.ofBool h.ch1.clkEn ++ BitVec.ofBool h.ch0.clkEn

/-- `CTRL[c]`: PRESC in bits 4:2, WAVE in bit 1, ENABLE in bit 0 (R39). -/
def Channel.ctrl (ch : Channel) : BitVec 5 := ch.presc ++ BitVec.ofBool ch.wave ++ BitVec.ofBool ch.enable

/-- `SYNCBUSY[c]`: ENABLE in bit 1, SWRST in bit 0 (R40). -/
def Channel.syncbusy (ch : Channel) : BitVec 2 := BitVec.ofBool ch.enableBusy ++ BitVec.ofBool ch.swrstBusy

/-- `PINSTAT[c]`: OUT in bit 1, PMUX in bit 0 (R41). -/
def Channel.pinstat (ch : Channel) : BitVec 2 := BitVec.ofBool ch.pwmOut ++ BitVec.ofBool ch.pmux

end Sys2Proof.Machine
end

