-- ==== Sys2Proof/Machine/Operands.lean ====
section
/-! DEFINITION. What an operand selects: the mode of a mode code (R89), the channel of a `sel` field (R63), the register
of a register number (R22, R61). -/

namespace Sys2Proof.Machine

/-- The code a mode is held under in `MODE` (R89). -/
def Mode.code : Mode → BitVec 3
  | .normal => 0
  | .lfoPwm => 1
  | .lfoFm => 2
  | .hardSync => 3
  | .calibration => 4
  | .flagTweak => 5

/-- The mode an operand of `ANIM_SET_MODE` names; 6 and 7 name none (R89, R102). -/
def Mode.ofCode (m : BitVec 3) : Option Mode :=
  match m with
  | 0#3 => some .normal
  | 1#3 => some .lfoPwm
  | 2#3 => some .lfoFm
  | 3#3 => some .hardSync
  | 4#3 => some .calibration
  | 5#3 => some .flagTweak
  | _ => none

/-- The channel that `sel` selects: "2 to 15 select nothing" (R63). -/
def selectedChan (sel : BitVec 4) : Option Chan :=
  match sel with
  | 0#4 => some .ch0
  | 1#4 => some .ch1
  | _ => none

/-- The register at offset `k` of channel `c`, numbered `0x30 + 8*c + k` (R22). -/
def chanReg (c : Chan) (k : BitVec 3) : RegName :=
  match k with
  | 0#3 => .ctrl c
  | 1#3 => .syncbusy c
  | 2#3 => .per c
  | 3#3 => .perb c
  | 4#3 => .cc c
  | 5#3 => .ccb c
  | 6#3 => .count c
  | _ => .pinstat c

/-- Register `base + i` of a per-pixel array, where `base` is a multiple of 8: `i` is the low three bits, and 7 is no
pixel (R22: 0x0F and 0x17 are unimplemented). -/
def pixelReg (reg : Fin 7 → RegName) (i : BitVec 3) : Option RegName :=
  if h : i.toNat < 7 then some (reg ⟨i.toNat, h⟩) else none

/-- The register with number `n`, none where the number is unimplemented (R22, R161). Numbers are grouped by eights:
`n[7:3]` is the group and `n[2:0]` the place in it. -/
def registerOf (n : BitVec 8) : Option RegName :=
  let k := n.extractLsb' 0 3
  match n.extractLsb' 3 5 with
  | 0x00#5 =>
    match k with
    | 0#3 => some .mode
    | 1#3 => some .lastUpdate
    | 2#3 => some .phase
    | 3#3 => some .hueAcc
    | 4#3 => some .transitioning
    | 5#3 => some .tweakLfo
    | 6#3 => some .tweakEn
    | _ => none
  | 0x01#5 => pixelReg .decay k
  | 0x02#5 => pixelReg .px k
  | 0x04#5 =>
    match k with
    | 0#3 => some .hardSync
    | 1#3 => some .pinitState
    | 2#3 => some .intflag
    | 3#3 => some .inten
    | 4#3 => some .clkctrl
    | _ => none
  | 0x06#5 => some (chanReg .ch0 k)
  | 0x07#5 => some (chanReg .ch1 k)
  | _ => none

end Sys2Proof.Machine
end

