-- ==== Sys2Proof/Machine/Ops.lean ====
section
/-! DEFINITION. The named operations over the state that the meanings share: the response, the pixel output, the random
draw, the schedule, and what the timer channels do (overflow, retrigger, timer-unit reset). Taking the overflow interrupt
is `takeOverflowInterrupt`; it saves nothing and returns by itself (R175). There is no byte memory (R60). -/

namespace Sys2Proof.Machine

/-- `respond(v)` (R12, R81). -/
def State.respond (s : State) (v : Word) : State := { s with env := { s.env with rsp := some v } }

/-- An output event leaves the block (R18). -/
def State.emit (s : State) (e : OutEvent) : State := { s with env := { s.env with out := s.env.out ++ [e] } }

/-- `flush()` (R18). -/
def State.flush (s : State) : State := s.emit .flush

/-- `px_write(i, c)`: the event and the mirror, and nothing at or above `N_PIXELS` (R18). -/
def State.pxWrite (b : Board) (i : Nat) (c : Word) (s : State) : State :=
  if i < b.nPixels then
    State.emit { s with ase := { s.ase with px := s.ase.px.setIfInBounds i c } } (.pxWrite i c)
  else s

/-- `PX[i]`; there is none beyond 6 (log 19). -/
def Ase.pxAt (a : Ase) (i : Nat) : Word := a.px[i]?.getD 0

/-- `DECAY[i]`; there is none beyond 6 (log 19). -/
def Ase.decayAt (a : Ase) (i : Nat) : Byte := a.decay[i]?.getD 0

/-- `HUE_OFFSET[i]`; there is none beyond 6 (log 19). -/
def hueOffsetAt (b : Board) (i : Nat) : Half := b.hueOffset[i]?.getD 0

/-- `DECAY[i] <- d`. -/
def State.setDecay (i : Nat) (d : Byte) (s : State) : State :=
  { s with ase := { s.ase with decay := s.ase.decay.setIfInBounds i d } }

/-- `for i in 0 .. N-1`, in ascending order (R62: bounded by the configured count). -/
def forPixels (b : Board) (body : Nat → State → State) (s : State) : State :=
  (List.range b.nPixels).foldl (fun s i => body i s) s

/-- One `px_write` per pixel, the colour a function of the index. -/
def State.paint (b : Board) (colour : Nat → Word) (s : State) : State :=
  forPixels b (fun i => State.pxWrite b i (colour i)) s

/-- The word the `k`-th draw from here gives: a supplied one while there are any, then a free one (R17; log 4). -/
def Env.drawAt (e : Env) (k : Nat) : Word :=
  match e.draws[k]? with
  | some r => r
  | none => Config.freeDraw (e.drawn + (k - e.draws.length))

/-- The random generator after one draw. -/
def State.afterDraw (s : State) : State :=
  match s.env.draws with
  | _ :: rest => { s with env := { s.env with draws := rest } }
  | [] => { s with env := { s.env with drawn := s.env.drawn + 1 } }

/-- The move the schedule names: its head, then a free move (R8, R176; log 1). -/
def State.scheduled (s : State) : Event :=
  match s.env.events with
  | e :: _ => e
  | [] => Config.freeEvent s.env.turn

/-- Whether channel 1 may take no further count before the handler has run: an overflow of channel 0 is pending, and
channel 1 has taken as many counts since it as the board allows, if it sets a bound (R179; log 12). -/
def State.overdue (b : Board) (s : State) : Bool :=
  s.hsc.intflag &&
    match b.irqLatencyMax with
    | some n => decide (n ≤ s.env.waited)
    | none => false

/-- The move that comes when the schedule names `e`: a count of channel 1 that would break the bound on the handler's
latency gives way to the handler, which changes nothing while `INTEN` masks it, so that the count does not come before it;
any other choice is free (R175, R176, R179; log 8, 12). -/
def State.arbitrate (b : Board) (s : State) (e : Event) : Event :=
  match e with
  | .timer .ch1 => if s.hsc.timerEnabled .ch1 && s.overdue b then .handler else e
  | _ => e

/-- The move that comes next. -/
def State.nextEvent (s : State) : Event := s.arbitrate Config.board s.scheduled

/-- `waited` after the move `e`: the counts of channel 1 since the overflow that set the pending flag, whether or not the
interrupt is enabled (R174, R179; log 12). -/
def State.waitedAfter (s : State) (e : Event) : Nat :=
  if s.hsc.intflag then
    if e = .timer .ch1 ∧ s.hsc.timerEnabled .ch1 = true then s.env.waited + 1 else s.env.waited
  else 0

/-- The state without the move that comes next: that move off the schedule, and counted (log 1, 12). -/
def State.afterEvent (s : State) : State :=
  match s.env.events with
  | _ :: rest => { s with env := { s.env with events := rest, waited := s.waitedAfter s.nextEvent } }
  | [] => { s with env := { s.env with turn := s.env.turn + 1, waited := s.waitedAfter s.nextEvent } }

/-- `f` applied to channel `c`. -/
def Hsc.onChan (h : Hsc) (c : Chan) (f : Channel → Channel) : Hsc :=
  match c with
  | .ch0 => { h with ch0 := f h.ch0 }
  | .ch1 => { h with ch1 := f h.ch1 }

/-- "for c": `f` applied to both channels, 0 then 1, inside one step (R141). -/
def Hsc.onBoth (h : Hsc) (f : Chan → Channel → Channel) : Hsc :=
  (h.onChan .ch0 (f .ch0)).onChan .ch1 (f .ch1)

/-- The live registers take the buffered values (R181, R182). -/
def Channel.latch (ch : Channel) : Channel := { ch with per := ch.perb, cc := ch.ccb }

/-- The part of an overflow that concerns the channel alone (R181). -/
def Channel.wrap (ch : Channel) : Channel := { ch.latch with count := 0 }

/-- `pend OVF0` (R12). -/
def Hsc.pendOvf0 (h : Hsc) : Hsc := { h with intflag := true }

/-- Overflow of channel `c` (R181). -/
def Hsc.overflow (h : Hsc) (c : Chan) : Hsc :=
  match c with
  | .ch0 => (h.onChan .ch0 Channel.wrap).pendOvf0
  | .ch1 => h.onChan .ch1 Channel.wrap

/-- One tick of channel `c` (R180): the overflow test comes first. -/
def Hsc.tick (h : Hsc) (c : Chan) : Hsc :=
  if (h.chan c).per ≤ (h.chan c).count then h.overflow c
  else h.onChan c (fun ch => { ch with count := ch.count + 1 })

/-- What a retrigger does to the channel it restarts: the buffers are latched only where the switch is set (R182). -/
def Channel.restart (b : Board) (ch : Channel) : Channel :=
  if b.retriggerUpdates then { ch.latch with count := 0 } else { ch with count := 0 }

/-- Retrigger of channel 1 (R182). -/
def Hsc.retrigger (b : Board) (h : Hsc) : Hsc := h.onChan .ch1 (Channel.restart b)

/-- Taking the overflow interrupt: entry, body and return of the handler in one step (R175). -/
def Hsc.takeOverflowInterrupt (b : Board) (h : Hsc) : Hsc :=
  let cleared := { h with intflag := false }
  if h.hardSync then cleared.retrigger b else cleared

/-- The acknowledge event of channel `c` (R183). -/
def Hsc.acknowledge (h : Hsc) (c : Chan) : AckKind → Hsc
  | .swrst => h.onChan c (fun ch => { ch with swrstBusy := false })
  | .enable => h.onChan c (fun ch => { ch with enableBusy := false })

/-- The registers of a timer unit at their reset values; `CLKCTRL`, `PINSTAT.PMUX` and `SYNCBUSY.SWRST` are outside it
(R142). -/
def Channel.unitReset (ch : Channel) : Channel :=
  { ch with
    enable := false, wave := false, presc := 0, per := 0, perb := 0, cc := 0, ccb := 0, count := 0,
    enableBusy := false }

/-- Timer-unit reset of both channels, each then waiting for its acknowledge; that of channel 0 drops the pending
interrupt and its enable (R141 row 3, R142). -/
def Hsc.resetUnits (h : Hsc) : Hsc :=
  { h.onBoth (fun _ ch => { ch.unitReset with swrstBusy := true }) with intflag := false, inten := false }

end Sys2Proof.Machine
end

