-- ==== Sys2Proof/Machine/Control.lean ====
section
/-! DEFINITION. The animation control commands (40_animation_control). None renders and none raises anything. -/

namespace Sys2Proof.Machine

/-- `ANIM_INIT`: `LAST_UPDATE <- now`, no other state reset (R100). -/
def execAnimInit (s : State) : Host.Outcome State Fault Refusal :=
  .next (State.respond { s with ase := { s.ase with lastUpdate := s.env.now } } 0)

/-- The three writes of an accepted `ANIM_SET_MODE`, whatever the modes (R101). -/
def Ase.enterMode (a : Ase) (m : Mode) : Ase := { a with mode := m, phase := 0, transitioning := true }

/-- `ANIM_SET_MODE`: codes 6 and 7 are a no-op (R101, R102). -/
def execAnimSetMode (mode : BitVec 3) (s : State) : Host.Outcome State Fault Refusal :=
  .next (match Mode.ofCode mode with
    | some m => State.respond { s with ase := s.ase.enterMode m } 0
    | none => s.respond 0)

/-- `TWEAK_SET_LFO`: any 32-bit value is stored as it is (R103). -/
def execTweakSetLfo (x : Fix16) (s : State) : Host.Outcome State Fault Refusal :=
  .next (State.respond { s with ase := { s.ase with tweakLfo := x } } 0)

/-- `TWEAK_SET_EN`: both flags together (R104). -/
def execTweakSetEn (castor pollux : Bool) (s : State) : Host.Outcome State Fault Refusal :=
  .next (State.respond { s with ase := { s.ase with tweakCastor := castor, tweakPollux := pollux } } 0)

end Sys2Proof.Machine
end

