-- ==== Sys2Proof/Machine/Pulse.lean ====
section
/-! DEFINITION. The pulse generator commands (42_pulse_commands) and the micro-steps of the bring-up. -/

namespace Sys2Proof.Machine

/-- `PULSE_INIT`: acceptance sets `PINIT_STATE <- 1` and the port is closed until row 13 responds (R140, R144). A second
one runs the whole sequence again (R145). -/
def execPulseInit (s : State) : Host.Outcome State Fault Refusal :=
  .next { s with hsc := { s.hsc with pinitState := 1 }, env := { s.env with rsp := none } }

/-- The two buffered writes, in one step (R147). -/
def Channel.program (period : Word) (ch : Channel) : Channel := { ch with perb := period, ccb := period >>> 1 }

/-- `PULSE_SET_PERIOD`: channels 2 to 15 are a no-op, every period is accepted, and there is no enable check (R147, R148,
R149, R151). -/
def execPulseSetPeriod (ch : BitVec 4) (period : Word) (s : State) : Host.Outcome State Fault Refusal :=
  .next (match selectedChan ch with
    | some c => State.respond { s with hsc := s.hsc.onChan c (Channel.program period) } 0
    | none => s.respond 0)

/-- `PULSE_SET_HARD_SYNC`: a pure write of the flag (R150). -/
def execPulseSetHardSync (e : Bool) (s : State) : Host.Outcome State Fault Refusal :=
  .next (State.respond { s with hsc := { s.hsc with hardSync := e } } 0)

/-! ## The bring-up (R141) -/

/-- Row 1: the peripheral clocks. -/
def rowClocks (h : Hsc) : Hsc := h.onBoth (fun _ ch => { ch with clkEn := true })

/-- Row 2: the shared clock generator. -/
def rowGenerator (h : Hsc) : Hsc := { h with gclkEn := true }

/-- Row 5: the prescalers. -/
def rowPrescaler (b : Board) (h : Hsc) : Hsc := h.onBoth (fun c ch => { ch with presc := b.cfgDiv c })

/-- Row 6: the waveform mode. -/
def rowWaveform (h : Hsc) : Hsc := h.onBoth (fun _ ch => { ch with wave := true })

/-- Row 7: the placeholder period, live and buffered. -/
def rowPeriod (b : Board) (h : Hsc) : Hsc :=
  h.onBoth (fun _ ch => { ch with per := b.perPlaceholder, perb := b.perPlaceholder })

/-- Row 8: the pins. -/
def rowPins (h : Hsc) : Hsc := h.onBoth (fun _ ch => { ch with pmux := true })

/-- Rows 9 and 11: enable channel `c`, which then waits for its acknowledge. -/
def rowEnable (c : Chan) (h : Hsc) : Hsc := h.onChan c (fun ch => { ch with enable := true, enableBusy := true })

/-- Row 13: the overflow interrupt. -/
def rowInterrupt (h : Hsc) : Hsc := { h with inten := true }

/-- The guard of row `n`: rows 4, 10 and 12 wait, and there is no row 14 or 15 (R141, R35; log 15). -/
def rowGuard (n : BitVec 4) (h : Hsc) : Bool :=
  match n with
  | 4#4 => !h.ch0.swrstBusy && !h.ch1.swrstBusy
  | 10#4 => !h.ch0.enableBusy
  | 12#4 => !h.ch1.enableBusy
  | 14#4 => false
  | 15#4 => false
  | _ => true

/-- The action of row `n` (R141). -/
def rowAction (b : Board) (n : BitVec 4) (h : Hsc) : Hsc :=
  match n with
  | 1#4 => rowClocks h
  | 2#4 => rowGenerator h
  | 3#4 => h.resetUnits
  | 5#4 => rowPrescaler b h
  | 6#4 => rowWaveform h
  | 7#4 => rowPeriod b h
  | 8#4 => rowPins h
  | 9#4 => rowEnable .ch0 h
  | 11#4 => rowEnable .ch1 h
  | 13#4 => rowInterrupt h
  | _ => h

/-- `PINIT_STATE` after row `n` (R141). -/
def rowNext (n : BitVec 4) : BitVec 4 := if n = 13 then 0 else n + 1

/-- The response of row `n`: row 13 gives that of `PULSE_INIT` (R141). -/
def rowRespond (n : BitVec 4) (s : State) : State := if n = 13 then s.respond 0 else s

/-- The host's micro-step of the bring-up: the row of `PINIT_STATE`, or nothing while its guard waits (R141, R146). -/
def microStep (b : Board) (s : State) : State :=
  let n := s.hsc.pinitState
  if rowGuard n s.hsc then
    rowRespond n { s with hsc := { rowAction b n s.hsc with pinitState := rowNext n } }
  else s

end Sys2Proof.Machine
end

