-- ==== Sys2Proof/Machine/ReadReg.lean ====
section
/-! DEFINITION. The register read command (43_register_read). -/

namespace Sys2Proof.Machine

/-- The value of a register as `RDREG` presents it: whole, zero-extended (R22, R160). -/
def State.readReg (s : State) : RegName → Word
  | .mode => s.ase.mode.code.setWidth 32
  | .lastUpdate => s.ase.lastUpdate
  | .phase => s.ase.phase
  | .hueAcc => s.ase.hueAcc
  | .transitioning => flagWord s.ase.transitioning
  | .tweakLfo => s.ase.tweakLfo
  | .tweakEn => s.ase.tweakEn.setWidth 32
  | .decay i => (s.ase.decayAt i).setWidth 32
  | .px i => s.ase.pxAt i
  | .hardSync => flagWord s.hsc.hardSync
  | .pinitState => s.hsc.pinitState.setWidth 32
  | .intflag => flagWord s.hsc.intflag
  | .inten => flagWord s.hsc.inten
  | .clkctrl => s.hsc.clkctrl.setWidth 32
  | .ctrl c => (s.hsc.chan c).ctrl.setWidth 32
  | .syncbusy c => (s.hsc.chan c).syncbusy.setWidth 32
  | .per c => (s.hsc.chan c).per
  | .perb c => (s.hsc.chan c).perb
  | .cc c => (s.hsc.chan c).cc
  | .ccb c => (s.hsc.chan c).ccb
  | .count c => (s.hsc.chan c).count
  | .pinstat c => (s.hsc.chan c).pinstat.setWidth 32

/-- `reg[n]`: an unimplemented number reads 0 (R22, R161). -/
def State.readNumber (s : State) (n : BitVec 8) : Word :=
  match registerOf n with
  | some r => s.readReg r
  | none => 0

/-- `RDREG`: the response and nothing else (R160, R67). -/
def execRdreg (n : BitVec 8) (s : State) : Host.Outcome State Fault Refusal := .next (s.respond (s.readNumber n))

end Sys2Proof.Machine
end

