-- ==== Sys2Proof/Machine/Fixed.lean ====
section
/-! DEFINITION. The fixed-point primitives of R13: exact integer arithmetic, narrowed once at the end. -/

namespace Sys2Proof.Machine

/-- `FX_ONE`, 1.0 (R13). -/
def fxOne : Fix16 := 0x00010000

/-- `FX_MAX` (R13). -/
def fxMax : Fix16 := 0x7FFFFFFF

/-- `FX_MIN` (R13). -/
def fxMin : Fix16 := 0x80000000

/-- `clamp(x, lo, hi) = max(lo, min(hi, x))` (R11). -/
def clamp (x lo hi : Int) : Int := max lo (min hi x)

/-- `sat32(x)`: the integer clamped to the signed 32-bit range (R13). -/
def sat32 (x : Int) : Fix16 := BitVec.ofInt 32 (clamp x (-2147483648) 2147483647)

/-- `fx_add` (R13). -/
def fxAdd (a b : Fix16) : Fix16 := sat32 (a.toInt + b.toInt)

/-- `fx_sub` (R13). -/
def fxSub (a b : Fix16) : Fix16 := sat32 (a.toInt - b.toInt)

/-- `fx_mul`: the exact product, floored (R13). -/
def fxMul (a b : Fix16) : Fix16 := sat32 ((a.toInt * b.toInt).fdiv 65536)

/-- `fx_div`: truncated toward zero; by zero it saturates by the sign of the dividend (R13). -/
def fxDiv (a b : Fix16) : Fix16 :=
  if b = 0 then (if 0 ≤ a.toInt then fxMax else fxMin)
  else sat32 ((a.toInt * 65536).tdiv b.toInt)

/-- `fx_from_uint`: saturates above 32767 (R13). -/
def fxFromUint (n : Word) : Fix16 := BitVec.ofNat 32 (min n.toNat 32767 * 65536)

/-- `fx_to_int`: floored, a signed integer (R13). -/
def fxToInt (a : Fix16) : Int := a.toInt.fdiv 65536

end Sys2Proof.Machine
end

