-- ==== Sys2Proof/Machine/Render.lean ====
section
/-! DEFINITION. `ANIM_STEP`: the frame-rate limiter, the dispatch, the four renderers and the sparkle overlay
(41_animation_step). Each renderer is a function of the block as built and of the state; the numbers it computes per pixel
have names of their own. -/

namespace Sys2Proof.Machine

/-- The low 8 bits of an integer, `[7:0]` (R117, R121, R123). -/
def byteOf (x : Int) : Byte := BitVec.ofInt 8 x

/-! ## The transition renderer (R115, R116) -/

/-- The target hue by destination mode; Calibration and Flag-Tweak fall through with hue 0 (R89, R115). -/
def transHue (b : Board) : Mode → Half
  | .normal => b.transHueNormal
  | .lfoPwm => b.transHueLfoPwm
  | .lfoFm => b.transHueLfoFm
  | .hardSync => b.transHueHardSync
  | .calibration => 0
  | .flagTweak => 0

/-- `PHASE` after the advance of a transition frame (R115). -/
def transPhase (phase : Fix16) (delta : Word) : Fix16 :=
  fxAdd phase (fxDiv (fxFromUint delta) (fxFromUint 1000))

/-- The brightness of a transition frame, `255 * (1 - phase)` clamped to 0..255 (R115). -/
def transValue (phase : Fix16) : Byte :=
  byteOf (clamp (fxToInt (fxMul (fxFromUint 255) (fxSub fxOne phase))) 0 255)

/-- One transition frame, all pixels alike; the transition ends when `PHASE` exceeds 1.0, signed and strict (R115,
R116). -/
def transitionRenderer (b : Board) (delta : Word) (s : State) : State :=
  let phase := transPhase s.ase.phase delta
  let painted := State.paint b (fun _ => b.hsv (transHue b s.ase.mode) 255 (transValue phase))
    { s with ase := { s.ase with phase := phase } }
  if fxOne.toInt < phase.toInt then { painted with ase := { painted.ase with transitioning := false } }
  else painted

/-! ## The normal renderer (R117) -/

/-- `PHASE` after the advance of a normal frame: the 16 fraction bits (R117). -/
def normalPhase (phase : Fix16) (delta : Word) : Fix16 :=
  ((fxAdd phase (fxDiv (fxFromUint delta) (fxFromUint 2200))).setWidth 16).setWidth 32

/-- `HUE_ACC` after the advance of a normal frame (R117). -/
def normalHueAcc (hueAcc delta : Word) : Word := ((hueAcc + delta * 5).setWidth 16).setWidth 32

/-- The phase offset `i/N` of pixel `i` (R117). -/
def pixelOffset (b : Board) (i : Nat) : Fix16 :=
  fxDiv (fxFromUint (BitVec.ofNat 32 i)) (fxFromUint (BitVec.ofNat 32 b.nPixels))

/-- The brightness of pixel `i` at `phase` (R117). -/
def normalValue (b : Board) (phase : Fix16) (i : Nat) : Byte :=
  byteOf (20 + fxToInt (fxMul (b.sineNorm (fxAdd phase (pixelOffset b i))) (fxFromUint 235)))

/-- `(HUE_ACC + HUE_OFFSET[i]) mod 65536` (R117, R119). -/
def pixelHue (b : Board) (hueAcc : Word) (i : Nat) : Half := hueAcc.setWidth 16 + hueOffsetAt b i

/-- The colour the normal renderer gives pixel `i` (R117). -/
def normalColour (b : Board) (phase : Fix16) (hueAcc : Word) (i : Nat) : Word :=
  b.hsv (pixelHue b hueAcc i) 255 (normalValue b phase i)

/-- One normal frame; the pixel loop uses the advanced `PHASE` and `HUE_ACC` (R117). -/
def normalRenderer (b : Board) (delta : Word) (s : State) : State :=
  let phase := normalPhase s.ase.phase delta
  let hueAcc := normalHueAcc s.ase.hueAcc delta
  State.paint b (normalColour b phase hueAcc) { s with ase := { s.ase with phase := phase, hueAcc := hueAcc } }

/-! ## The sparkle overlay (R119) -/

/-- A random word triggers a sparkle when it is 0 modulo `SPARKLE_DIV` = 400 (R9, R119). -/
def triggers (r : Word) : Bool := r.toNat % 400 == 0

/-- The decay of a pixel after the trigger test of draw `r` (R119). -/
def triggeredDecay (r : Word) (d : Byte) : Byte := if triggers r then 255 else d

/-- The decay after the decrement `delta >> 2`, floored at 0 and compared as 32 bits (R119). -/
def decayedBy (delta : Word) (d : Byte) : Byte :=
  if d.setWidth 32 ≤ delta >>> 2 then 0 else (d.setWidth 32 - delta >>> 2).setWidth 8

/-- The overlay's colour for a pixel with decay `d` (R119). -/
def sparkleColour (b : Board) (hueAcc : Word) (i : Nat) (d : Byte) : Word :=
  b.hsv (pixelHue b hueAcc i) (255 - d) 127

/-- The overlay at pixel `i`: draw, trigger, overwrite the pixel with the decay as it is, decrement (R119). -/
def sparklePixel (b : Board) (delta : Word) (i : Nat) (s : State) : State :=
  let d := triggeredDecay (s.env.drawAt 0) (s.ase.decayAt i)
  if d = 0#8 then s.afterDraw
  else (s.afterDraw.pxWrite b i (sparkleColour b s.ase.hueAcc i d)).setDecay i (decayedBy delta d)

/-- The overlay, one draw a pixel in ascending order (R119). -/
def sparkleOverlay (b : Board) (delta : Word) (s : State) : State := forPixels b (sparklePixel b delta) s

/-! ## The calibration renderer (R121) -/

/-- The brightness of the even pixels at tick `now` (R121). -/
def calibrationValue (b : Board) (now : Word) : Byte :=
  let t := (now >>> 1) % 2000
  byteOf (fxToInt (fxMul (b.sineNorm (fxDiv (fxFromUint t) (fxFromUint 2000))) (fxFromUint 255)))

/-- The colour of pixel `i`: the two hues and the complementary brightness of odd pixels (R121). -/
def calibrationColour (b : Board) (value : Byte) (i : Nat) : Word :=
  if i % 2 = 0 then b.hsv 50000 255 value else b.hsv 10000 255 (255 - value)

/-- One calibration frame (R121). -/
def calibrationRenderer (b : Board) (now : Word) (s : State) : State :=
  State.paint b (calibrationColour b (calibrationValue b now)) s

/-! ## The tweak renderer (R123) -/

/-- `lfo` remapped from [-1, 1] and masked to 8 bits (R123). -/
def tweakValue (lfo : Fix16) : Byte :=
  byteOf (fxToInt (fxMul (fxDiv (fxAdd lfo fxOne) (fxFromUint 2)) (fxFromUint 255)))

/-- The colour of pixels 4 to 6; the hue is two-twelfths of the wheel, 10922 (R10, R123). -/
def tweakColour (b : Board) (lfo : Fix16) : Word := b.hsv 10922 255 (tweakValue lfo)

/-- Two pixels take a colour if their voice is enabled (R123). -/
def State.solidPair (b : Board) (enabled : Bool) (i : Nat) (c : Word) (s : State) : State :=
  if enabled then (s.pxWrite b i c).pxWrite b (i + 1) c else s

/-- One tweak frame (R123). -/
def tweakRenderer (b : Board) (s : State) : State :=
  let zeroed := State.paint b (fun _ => 0) s
  let solid := (zeroed.solidPair b s.ase.tweakCastor 0 b.castorColor).solidPair b s.ase.tweakPollux 2 b.polluxColor
  let c := tweakColour b s.ase.tweakLfo
  ((solid.pxWrite b 4 c).pxWrite b 5 c).pxWrite b 6 c

/-! ## The command (R110 to R114) -/

/-- `delta = (now - LAST_UPDATE) mod 2^32` (R110, R111). -/
def State.delta (s : State) : Word := s.env.now - s.ase.lastUpdate

/-- The frame of the mode: modes 0 to 3 render alike (R113). -/
def modeRenderer (b : Board) (delta : Word) (s : State) : State :=
  match s.ase.mode with
  | .normal => sparkleOverlay b delta (normalRenderer b delta s)
  | .lfoPwm => sparkleOverlay b delta (normalRenderer b delta s)
  | .lfoFm => sparkleOverlay b delta (normalRenderer b delta s)
  | .hardSync => sparkleOverlay b delta (normalRenderer b delta s)
  | .calibration => calibrationRenderer b s.env.now s
  | .flagTweak => tweakRenderer b s

/-- The dispatch: `TRANSITIONING` first, `MODE` second (R113). -/
def renderFrame (b : Board) (delta : Word) (s : State) : State :=
  if s.ase.transitioning then transitionRenderer b delta s else modeRenderer b delta s

/-- An effective step: the new baseline, one frame, one flush, response 1 (R112, R113, R114). -/
def effectiveStep (b : Board) (s : State) : State :=
  let based := { s with ase := { s.ase with lastUpdate := s.env.now } }
  (renderFrame b s.delta based).flush.respond 1

/-- One `ANIM_STEP` of the block as built `b`: the comparison of the limiter is unsigned and strict (R110, R111). -/
def animStepOn (b : Board) (s : State) : State :=
  if s.delta < b.animInterval then s.respond 0 else effectiveStep b s

/-- `ANIM_STEP` (R110). -/
def execAnimStep (s : State) : Host.Outcome State Fault Refusal := .next (animStepOn Config.board s)

end Sys2Proof.Machine
end

