-- ==== Sys2Proof/Machine/Dispatch.lean ====
section
/-! DEFINITION. One arm per command: what a command does once the port has accepted it (R86). -/

namespace Sys2Proof.Machine

def exec (i : Instr) (s : State) : Host.Outcome State Fault Refusal :=
  match i with
  | .animInit => Sys2Proof.Machine.execAnimInit s
  | .animSetMode mode => Sys2Proof.Machine.execAnimSetMode mode s
  | .animStep => Sys2Proof.Machine.execAnimStep s
  | .tweakSetLfo x => Sys2Proof.Machine.execTweakSetLfo x s
  | .tweakSetEn castor pollux => Sys2Proof.Machine.execTweakSetEn castor pollux s
  | .pulseInit => Sys2Proof.Machine.execPulseInit s
  | .pulseSetPeriod ch period => Sys2Proof.Machine.execPulseSetPeriod ch period s
  | .pulseSetHardSync e => Sys2Proof.Machine.execPulseSetHardSync e s
  | .rdreg n => Sys2Proof.Machine.execRdreg n s

end Sys2Proof.Machine
end

