-- ==== Sys2Proof/Machine/Agents.lean ====
section
/-! DEFINITION. What each agent of R8 does when it moves: the host at the command port or in the bring-up, a timer
channel, an acknowledge, the interrupt handler, the reset input, and the tick input. A move of an agent that is not enabled
is no step of the block: nothing changes (log 8). -/

namespace Sys2Proof.Machine

/-- A reserved encoding: no register changes, no output event, `respond(0)` (R87). -/
def reservedNoOp (s : State) : State := s.respond 0

/-- The command port accepts one word, and what it stands for runs (R86). -/
def runWord (w : CmdWord) (s : State) : Host.Outcome State Fault Refusal :=
  match decode w with
  | .ok i => exec i s
  | .error _ => .next (reservedNoOp s)

/-- The host at the open port: its next command, if it has one (R7, R82). -/
def acceptCommand (s : State) : Host.Outcome State Fault Refusal :=
  match s.env.cmds with
  | [] => .next s
  | w :: rest => runWord w { s with env := { s.env with cmds := rest } }

/-- A move of the host: a command while the port is open, a micro-step of the bring-up while it is closed (R141, R144). -/
def hostMove (s : State) : Host.Outcome State Fault Refusal :=
  if s.hsc.portOpen then acceptCommand s else .next (microStep Config.board s)

/-- A tick of channel `c` (R180). -/
def timerMove (c : Chan) (s : State) : State :=
  if s.hsc.timerEnabled c then { s with hsc := s.hsc.tick c } else s

/-- An acknowledge event (R183). -/
def ackMove (c : Chan) (k : AckKind) (s : State) : State :=
  if s.hsc.ackEnabled c k then { s with hsc := s.hsc.acknowledge c k } else s

/-- The interrupt handler (R175). -/
def handlerMove (b : Board) (s : State) : State :=
  if s.hsc.handlerEnabled then { s with hsc := s.hsc.takeOverflowInterrupt b } else s

/-- Reset of the block: every register, and a command in progress is abandoned without a response; the collaborators are
not reset (R200, R201; log 11). -/
def resetMove (s : State) : State :=
  { ase := Ase.reset, hsc := Hsc.reset, env := { s.env with rsp := none } }

/-- The tick input takes another value (R14). -/
def nowMove (t : Word) (s : State) : State := { s with env := { s.env with now := t } }

/-- The host decides on one more command (R7). -/
def issueMove (w : CmdWord) (s : State) : State := { s with env := { s.env with cmds := s.env.cmds ++ [w] } }

/-- One move. -/
def move (e : Event) (s : State) : Host.Outcome State Fault Refusal :=
  match e with
  | .host => hostMove s
  | .timer c => .next (timerMove c s)
  | .ack c k => .next (ackMove c k s)
  | .handler => .next (handlerMove Config.board s)
  | .reset => .next (resetMove s)
  | .now t => .next (nowMove t s)
  | .issue w => .next (issueMove w s)

/-- The state in which word `w` is the next command and the next move is the host's, at an open port (log 2). -/
def State.offering (s : State) (w : CmdWord) : State :=
  { s with
    hsc := { s.hsc with pinitState := 0 },
    env := { s.env with cmds := w :: s.env.cmds, events := .host :: s.env.events } }

end Sys2Proof.Machine
end

