-- ==== Sys2Proof/Machine/Step.lean ====
section
/-! DEFINITION. One step of the machine: the next move of the schedule (R8). -/

namespace Sys2Proof.Machine

/-- One step: whichever agent or input moves next makes its move (R8, R176). -/
def step (s : State) : Host.Outcome State Fault Refusal := move s.nextEvent s.afterEvent

/-- `s` with an instruction, numbered as the opcode table numbers it, as the next command of the host, whose move is the
next one (log 2). -/
def State.withFetchWord (s : State) (nbits w : Nat) : State := s.offering (tableWord nbits w)

end Sys2Proof.Machine
end

