-- ==== Sys2Proof/Safety.lean ====
section
/-! DEFINITION. What the claims speak of: the value invariants of R52, the invariant of the bring-up behind R143, the bound of R179, and the
words for runs of `ANIM_STEP` and for "the host runs command i now". -/

namespace Sys2Proof.Machine

/-- The ASE part of R52: `HUE_ACC <= 65535`, `PHASE` not negative, and nothing in the arrays beyond `N_PIXELS`.
(`MODE <= 5` holds by the type of `mode`.) -/
structure Ase.Sound (b : Board) (a : Ase) : Prop where
  hue : a.hueAcc.toNat ≤ 65535
  phase : 0 ≤ a.phase.toInt
  decay : ∀ i, b.nPixels ≤ i → a.decayAt i = 0
  px : ∀ i, b.nPixels ≤ i → a.pxAt i = 0

/-- The last row of the bring-up before channel `c` is enabled again (R141). -/
def enableRow : Chan → Nat
  | .ch0 => 9
  | .ch1 => 11

/-- Channel `c` has been reset and not yet enabled again: `PINIT_STATE` is past row 3 and not past the channel's
enabling row (R141). -/
def Hsc.Settling (h : Hsc) (c : Chan) : Prop := 4 ≤ h.pinitState.toNat ∧ h.pinitState.toNat ≤ enableRow c

/-- The HSC part of R52: `PINIT_STATE <= 13`, `COUNT[c] <= PER[c]` while enabled; and what keeps the latter, that a
channel between its reset and its enable is disabled at count 0 (R46). -/
structure Hsc.Sound (h : Hsc) : Prop where
  pinit : h.pinitState.toNat ≤ 13
  count : ∀ c, (h.chan c).enable = true → (h.chan c).count ≤ (h.chan c).per
  settling : ∀ c, h.Settling c → (h.chan c).enable = false ∧ (h.chan c).count = 0

/-- The bound of R179 is kept: while an overflow of channel 0 is pending, channel 1 has taken at most `IRQ_LATENCY_MAX`
counts since it, where the board sets the bound (log 12). -/
def State.Prompt (b : Board) (s : State) : Prop :=
  s.hsc.intflag = true → ∀ n, b.irqLatencyMax = some n → s.env.waited ≤ n

/-- The value invariants of R52. -/
structure State.Sound (s : State) : Prop where
  ase : s.ase.Sound Config.board
  hsc : s.hsc.Sound

/-- What the rows already run have left in channel `c`, whatever other agents did in between (R141, R143). -/
structure Hsc.Prepared (b : Board) (h : Hsc) (c : Chan) : Prop where
  clock : 2 ≤ h.pinitState.toNat → (h.chan c).clkEn = true
  compare : 4 ≤ h.pinitState.toNat → (h.chan c).cc = 0 ∧ (h.chan c).ccb = 0
  drained : 5 ≤ h.pinitState.toNat → (h.chan c).swrstBusy = false
  presc : 6 ≤ h.pinitState.toNat → (h.chan c).presc = b.cfgDiv c
  wave : 7 ≤ h.pinitState.toNat → (h.chan c).wave = true
  period : 8 ≤ h.pinitState.toNat → (h.chan c).per = b.perPlaceholder ∧ (h.chan c).perb = b.perPlaceholder
  pin : 9 ≤ h.pinitState.toNat → (h.chan c).pmux = true
  idle : h.Settling c → (h.chan c).enableBusy = false
  enabled : enableRow c < h.pinitState.toNat → (h.chan c).enable = true
  acknowledged : enableRow c + 1 < h.pinitState.toNat → (h.chan c).enableBusy = false

/-- The progress of a bring-up, by the row that runs next (R141). It says nothing while no bring-up runs. -/
structure Hsc.BringUp (b : Board) (h : Hsc) : Prop where
  generator : 3 ≤ h.pinitState.toNat → h.gclkEn = true
  masked : 4 ≤ h.pinitState.toNat → h.inten = false
  chan : ∀ c, h.Prepared b c

/-- The host runs command `i` in the next step: its move, the port open, and the word it offers decodes to `i`. -/
def State.Runs (s : State) (i : Instr) : Prop :=
  s.nextEvent = .host ∧ s.hsc.portOpen = true ∧ ∃ w rest, s.env.cmds = w :: rest ∧ decode w = .ok i

/-- The next step is row `n` of the bring-up, its guard holding (R141). -/
def State.RunsRow (s : State) (n : BitVec 4) : Prop :=
  s.nextEvent = .host ∧ s.hsc.pinitState = n ∧ n ≠ 0 ∧ rowGuard n s.hsc = true

/-- `ANIM_STEP` once at each of the ticks listed (R110). -/
def animRun : List Word → State → Host.Outcome State Fault Refusal
  | [], s => .next s
  | t :: ts, s =>
    match exec .animStep (nowMove t s) with
    | .next s' => animRun ts s'
    | o => o

/-- The `delta` of each effective step among `ANIM_STEP`s at the ticks listed, from baseline `last` (R111, R112). -/
def effectiveDeltas (last : Word) : List Word → List Nat
  | [] => []
  | t :: ts =>
    if t - last < Config.board.animInterval then effectiveDeltas last ts
    else (t - last).toNat :: effectiveDeltas t ts

end Sys2Proof.Machine
end

