-- ==== Sys2Proof/WellFormed.lean ====
section
/-! DEFINITION. Which command words are well formed: those that a row of the opcode map of R85 selects by match and
mask. A value of `Instr` needs no check of its own, because its operands have exactly the widths of their fields; what
can be ill formed is a word: a reserved `op`, or a must-be-zero bit that is set (R83, R87). The decoder (Decode.lean) does
not use this table; that the two agree is one of the statements. -/

namespace Sys2Proof

/-- One row of the opcode map: a word selects it when its bits under `mask` are `pattern` (R85). -/
structure OpcodeRow where
  mnemonic : String
  pattern : CmdWord
  mask : CmdWord
  deriving DecidableEq, Repr

/-- The nine rows of R85. -/
def opcodeRows : List OpcodeRow :=
  [ { mnemonic := "ANIM_INIT", pattern := 0x1000000000, mask := 0xFFFFFFFFFF },
    { mnemonic := "ANIM_SET_MODE", pattern := 0x2000000000, mask := 0xFFFFFFFFF8 },
    { mnemonic := "ANIM_STEP", pattern := 0x3000000000, mask := 0xFFFFFFFFFF },
    { mnemonic := "TWEAK_SET_LFO", pattern := 0x4000000000, mask := 0xFF00000000 },
    { mnemonic := "TWEAK_SET_EN", pattern := 0x5000000000, mask := 0xFFFFFFFFFC },
    { mnemonic := "PULSE_INIT", pattern := 0x8000000000, mask := 0xFFFFFFFFFF },
    { mnemonic := "PULSE_SET_PERIOD", pattern := 0x9000000000, mask := 0xF000000000 },
    { mnemonic := "PULSE_SET_HARD_SYNC", pattern := 0xA000000000, mask := 0xFFFFFFFFFE },
    { mnemonic := "RDREG", pattern := 0xF000000000, mask := 0xFFFFFFFF00 } ]

/-- The mnemonic of a command's row (R85). -/
def Instr.mnemonic : Instr → String
  | .animInit => "ANIM_INIT"
  | .animSetMode _ => "ANIM_SET_MODE"
  | .animStep => "ANIM_STEP"
  | .tweakSetLfo _ => "TWEAK_SET_LFO"
  | .tweakSetEn _ _ => "TWEAK_SET_EN"
  | .pulseInit => "PULSE_INIT"
  | .pulseSetPeriod _ _ => "PULSE_SET_PERIOD"
  | .pulseSetHardSync _ => "PULSE_SET_HARD_SYNC"
  | .rdreg _ => "RDREG"

/-- "a word `W` selects the row when `W and mask = match`" (R85). -/
def OpcodeRow.selects (r : OpcodeRow) (w : CmdWord) : Bool :=
  w &&& r.mask == r.pattern

/-- A word that some row selects; every other word is a reserved encoding (R86, R87). -/
def wellFormedWord (w : CmdWord) : Bool :=
  opcodeRows.any (·.selects w)

end Sys2Proof
end

