-- ==== Sys2Proof/Certificates/Slice0/Obligations.lean ====
section
/-! DEFINITION. The statements for the provers. Each docstring names the rule of spec/ it comes from. `Config.board` is the
block as it is built: every statement about it holds whatever its OPEN parameters and collaborator functions are.
`s.nextEvent` is the move that comes next (R8, and R179 where the board bounds the handler's latency) and `s.afterEvent` is
`s` with that move taken off the schedule and the latency counted (log 1, 12), nothing else. -/

open Sys2Proof Sys2Proof.Machine

/-! ## Encoding and the command port -/

/-- Words of the vectors VE1 to VE21 of 95_test_vectors decode as listed there (R85; decision D2). -/
def Obligations.KnownWordsDecode : Prop :=
  decode 0x1000000000 = .ok .animInit ∧
  decode 0x2000000005 = .ok (.animSetMode 5) ∧
  decode 0x3000000000 = .ok .animStep ∧
  decode 0x40FFFF0000 = .ok (.tweakSetLfo 0xFFFF0000) ∧
  decode 0x5000000002 = .ok (.tweakSetEn false true) ∧
  decode 0x8000000000 = .ok .pulseInit ∧
  decode 0x91000003E8 = .ok (.pulseSetPeriod 1 1000) ∧
  decode 0xA000000001 = .ok (.pulseSetHardSync true) ∧
  decode 0xF000000033 = .ok (.rdreg 0x33) ∧
  decode 0x0000000000 = .error (.opcode 0) ∧
  decode 0x3100000000 = .error (.mustBeZero 3)

/-- Decoding the word of any command, with any operands its fields can hold, gives the command (R83, R84; decision
D2). -/
def Obligations.DecodeOfEncode : Prop := ∀ i : Instr, decode (encode i) = .ok i

/-- A word that decodes is the word of what it decodes to: no bit of a defined encoding is ignored (R83, R84; decision
D2). -/
def Obligations.EncodeOfDecode : Prop := ∀ (w : CmdWord) (i : Instr), decode w = .ok i → encode i = w

/-- The decoder, written field by field, agrees with the match and mask table of R85 on every word: at most one row
matches, a word decodes exactly when a row matches, and to a command of that row (R86; decision D2). -/
def Obligations.DecodeAgreesWithOpcodeMap : Prop :=
  ∀ w : CmdWord,
    (∀ r ∈ opcodeRows, ∀ r' ∈ opcodeRows, r.selects w = true → r'.selects w = true → r = r') ∧
    (∀ i, decode w = .ok i → ∃ r ∈ opcodeRows, r.selects w = true ∧ r.mnemonic = i.mnemonic) ∧
    (wellFormedWord w = true → ∃ i, decode w = .ok i)

/-- Which words are reserved encodings, and that the host's step with one at the open port changes no register, emits
no event and responds 0 (R87; decision D4). -/
def Obligations.ReservedWordsOnlyRespondZero : Prop :=
  ∀ w : CmdWord,
    ((∃ r, decode w = .error r) ↔
      opField w ∈ [0x0#4, 0x6#4, 0x7#4, 0xB#4, 0xC#4, 0xD#4, 0xE#4] ∨
      opField w ∈ [0x1#4, 0x3#4, 0x8#4] ∧ (selField w ≠ 0 ∨ immField w ≠ 0) ∨
      opField w = 0x2#4 ∧ (selField w ≠ 0 ∨ 8 ≤ (immField w).toNat) ∨
      opField w = 0x4#4 ∧ selField w ≠ 0 ∨
      opField w = 0x5#4 ∧ (selField w ≠ 0 ∨ 4 ≤ (immField w).toNat) ∨
      opField w = 0xA#4 ∧ (selField w ≠ 0 ∨ 2 ≤ (immField w).toNat) ∨
      opField w = 0xF#4 ∧ (selField w ≠ 0 ∨ 256 ≤ (immField w).toNat)) ∧
    ∀ (s : State) (rest : List CmdWord) (r : Reserved),
      s.nextEvent = .host → s.hsc.pinitState = 0 → s.env.cmds = w :: rest → decode w = .error r →
      step s = .next { s.afterEvent with env := { s.afterEvent.env with cmds := rest, rsp := some 0 } }

/-- When it is the host's move, the port is open and the next word offered decodes to `i`, the step is `exec` of `i`
at the state without that word and that move (R8, R82, R86; decision D1). -/
def Obligations.StepRunsDecodedCommand : Prop :=
  ∀ (s : State) (w : CmdWord) (rest : List CmdWord) (i : Instr),
    s.hsc.pinitState = 0 → s.env.cmds = w :: rest → decode w = .ok i →
    (s.nextEvent = .host →
      step s = exec i { s.afterEvent with env := { s.afterEvent.env with cmds := rest } }) ∧
    (∀ es, s.env.events = .host :: es →
      step s = exec i { s with
        env := { s.env with cmds := rest, events := es, waited := if s.hsc.intflag then s.env.waited else 0 } })

/-- While `PINIT_STATE` is not 0 the port is closed: no move but a reset of the block takes a command from the host,
emits an output event or touches the ASE, and the host's own move leaves the words it has still to issue as they are
(R144). -/
def Obligations.PortClosedDuringBringUp : Prop :=
  ∀ s : State, s.hsc.pinitState ≠ 0 → s.hsc.portOpen = false ∧
    ∀ t, step s = .next t → s.nextEvent ≠ .reset →
      s.env.cmds <+: t.env.cmds ∧ t.env.out = s.env.out ∧ t.ase = s.ase ∧
      (s.nextEvent = .host → t.env.cmds = s.env.cmds)

/-- No step faults and none is refused: every state has a next state (R170). -/
def Obligations.EveryStepAnswersNext : Prop := ∀ s : State, ∃ t, step s = .next t

/-! ## Animation control -/

/-- `ANIM_INIT` (R100). -/
def Obligations.AnimInitRecordsTick : Prop :=
  encode .animInit = 0x1000000000 ∧
  ∀ s : State, exec .animInit s =
    .next { s with ase := { s.ase with lastUpdate := s.env.now }, env := { s.env with rsp := some 0 } }

/-- `ANIM_SET_MODE` with a mode of the closed set, from every state and every mode (R101). -/
def Obligations.AnimSetModeStartsTransition : Prop :=
  ∀ m : BitVec 3, encode (.animSetMode m) = 0x2000000000 + m.setWidth 40 ∧
    (m.toNat ≤ 5 → ∃ mode : Mode, mode.code = m ∧ ∀ s : State, exec (.animSetMode m) s =
      .next { s with
        ase := { s.ase with mode := mode, phase := 0, transitioning := true }
        env := { s.env with rsp := some 0 } })

/-- `ANIM_SET_MODE` with mode 6 or 7 is a no-op, so `MODE` never exceeds 5 (R102; decision D4). -/
def Obligations.AnimSetModeIgnoresReservedCodes : Prop :=
  (∀ (m : BitVec 3) (s : State), m = 6 ∨ m = 7 →
    exec (.animSetMode m) s = .next { s with env := { s.env with rsp := some 0 } }) ∧
  ∀ s : State, (s.readReg .mode).toNat ≤ 5

/-- `TWEAK_SET_LFO`, any word (R103; decision D29). -/
def Obligations.TweakSetLfoStoresWord : Prop :=
  ∀ x : Fix16, encode (.tweakSetLfo x) = 0x4000000000 + x.setWidth 40 ∧
    ∀ s : State, exec (.tweakSetLfo x) s =
      .next { s with ase := { s.ase with tweakLfo := x }, env := { s.env with rsp := some 0 } }

/-- `TWEAK_SET_EN`: both flags, as `RDREG` then shows them (R104; decision D29). -/
def Obligations.TweakSetEnStoresFlags : Prop :=
  ∀ castor pollux : Bool,
    (encode (.tweakSetEn castor pollux)).toNat = 0x5000000000 + 2 * pollux.toNat + castor.toNat ∧
    ∀ s : State, ∃ t, exec (.tweakSetEn castor pollux) s = .next t ∧
      t = { s with
        ase := { s.ase with tweakCastor := castor, tweakPollux := pollux }
        env := { s.env with rsp := some 0 } } ∧
      (t.readReg .tweakEn).toNat = 2 * pollux.toNat + castor.toNat

/-! ## ANIM_STEP -/

/-- The limiter: `delta` is the wrapping difference, the comparison is unsigned and strict, a rejected step changes
nothing but the response, and any other step is effective (R111). -/
def Obligations.LimiterRejectsEarlySteps : Prop :=
  ∀ s : State,
    ((s.env.now - s.ase.lastUpdate).toNat < Config.board.animInterval.toNat →
      exec .animStep s = .next { s with env := { s.env with rsp := some 0 } }) ∧
    (Config.board.animInterval.toNat ≤ (s.env.now - s.ase.lastUpdate).toNat →
      ∃ t, exec .animStep s = .next t ∧ t.ase.lastUpdate = s.env.now ∧ t.env.rsp = some 1)

/-- An effective step takes the sampled tick as the new baseline, renders one frame of at most 14 pixel writes, all
below `N_PIXELS`, then flushes once and responds 1; it touches no register of the HSC and no other ASE register but
those a renderer writes (R112, R114). -/
def Obligations.EffectiveStepRendersOneFrame : Prop :=
  ∀ s : State, Config.board.animInterval ≤ s.env.now - s.ase.lastUpdate →
    ∃ t frame, exec .animStep s = .next t ∧
      t.env.out = s.env.out ++ frame ++ [.flush] ∧
      (∀ e ∈ frame, ∃ i c, e = .pxWrite i c ∧ i < Config.board.nPixels) ∧
      Config.board.nPixels ≤ frame.length ∧ frame.length ≤ 14 ∧
      t.hsc = s.hsc ∧
      t.ase = { s.ase with
        lastUpdate := s.env.now, phase := t.ase.phase, hueAcc := t.ase.hueAcc, transitioning := t.ase.transitioning,
        decay := t.ase.decay, px := t.ase.px } ∧
      t.env = { s.env with rsp := some 1, out := t.env.out, draws := t.env.draws, drawn := t.env.drawn }

/-- A transition frame, in integers: the advance of `PHASE`, the hue of the destination mode, one brightness for all
pixels, and the end of the transition exactly when `PHASE` exceeds 1.0 (R115, R116; decisions D6, D11). -/
def Obligations.TransitionFrame : Prop :=
  ∀ s : State, Config.board.animInterval ≤ s.env.now - s.ase.lastUpdate → s.ase.transitioning = true →
    0 ≤ s.ase.phase.toInt →
    ∃ t, exec .animStep s = .next t ∧
      t.ase.phase.toInt = min 2147483647
        (s.ase.phase.toInt + ((min (s.env.now - s.ase.lastUpdate).toNat 32767 * 65536 / 1000 : Nat) : Int)) ∧
      t.ase.transitioning = decide (t.ase.phase.toInt ≤ 65536) ∧
      ∃ (hue : Half) (value : Byte),
        hue = (match s.ase.mode with
          | .normal => Config.board.transHueNormal
          | .lfoPwm => Config.board.transHueLfoPwm
          | .lfoFm => Config.board.transHueLfoFm
          | .hardSync => Config.board.transHueHardSync
          | .calibration => 0
          | .flagTweak => 0) ∧
        (value.toNat : Int) = max 0 (min 255 (255 * (65536 - t.ase.phase.toInt) / 65536)) ∧
        (∀ i, i < Config.board.nPixels → t.ase.pxAt i = Config.board.hsv hue 255 value) ∧
        t.env = { s.env with
          rsp := some 1
          out := s.env.out ++
            (List.range Config.board.nPixels).map (fun i => .pxWrite i (Config.board.hsv hue 255 value)) ++ [.flush] } ∧
        t.hsc = s.hsc ∧
        t.ase = { s.ase with
          lastUpdate := s.env.now, phase := t.ase.phase, transitioning := t.ase.transitioning, px := t.ase.px } ∧
        ∀ i, Config.board.nPixels ≤ i → t.ase.pxAt i = s.ase.pxAt i

/-- A frame of modes 0 to 3, in naturals: the advance of `PHASE` and `HUE_ACC` and the normal colour of every pixel,
before the overlay (R117; decisions D6, D7, D12). -/
def Obligations.NormalFrameAdvances : Prop :=
  ∀ s : State, Config.board.animInterval ≤ s.env.now - s.ase.lastUpdate → s.ase.transitioning = false →
    s.ase.mode ≠ .calibration → s.ase.mode ≠ .flagTweak → 0 ≤ s.ase.phase.toInt →
    ∃ t overlay, exec .animStep s = .next t ∧
      t.ase.phase.toNat = min 2147483647
        (s.ase.phase.toNat + min (s.env.now - s.ase.lastUpdate).toNat 32767 * 65536 / 2200) % 65536 ∧
      t.ase.hueAcc.toNat = (s.ase.hueAcc.toNat + 5 * (s.env.now - s.ase.lastUpdate).toNat) % 65536 ∧
      t.env.out = s.env.out ++
        (List.range Config.board.nPixels).map (fun i => .pxWrite i
          (Config.board.hsv (BitVec.ofNat 16 (t.ase.hueAcc.toNat + (hueOffsetAt Config.board i).toNat)) 255
            (BitVec.ofNat 8 (20 + 235 *
              (Config.board.sineNorm
                (BitVec.ofNat 32 (t.ase.phase.toNat + i * 65536 / Config.board.nPixels))).toNat / 65536)))) ++
        overlay ++ [.flush] ∧
      t.hsc = s.hsc ∧
      t.ase = { s.ase with
        lastUpdate := s.env.now, phase := t.ase.phase, hueAcc := t.ase.hueAcc, decay := t.ase.decay, px := t.ase.px }

/-- The sparkle overlay of such a frame, and what the pixels hold after it: one draw a pixel in ascending order, trigger
when the word is 0 modulo 400, the sparkling pixels overwritten with the decay as it was, the others left at their normal
colour, then the decay lowered by `delta / 4`, floored at 0 (R119, R117, R33; decisions D6, D10, D12). -/
def Obligations.SparkleOverlayFrame : Prop :=
  ∀ s : State, Config.board.animInterval ≤ s.env.now - s.ase.lastUpdate → s.ase.transitioning = false →
    s.ase.mode ≠ .calibration → s.ase.mode ≠ .flagTweak →
    ∃ t, exec .animStep s = .next t ∧
      ∃ (decay : Nat → Byte) (normal colour : Nat → Word),
        (∀ i, decay i = if (s.env.drawAt i).toNat % 400 = 0 then 255 else s.ase.decayAt i) ∧
        (∀ i, i < Config.board.nPixels → normal i = Config.board.hsv
          (BitVec.ofNat 16 (t.ase.hueAcc.toNat + (hueOffsetAt Config.board i).toNat)) 255
          (BitVec.ofNat 8 (20 + 235 *
            (Config.board.sineNorm
              (BitVec.ofNat 32 (t.ase.phase.toNat + i * 65536 / Config.board.nPixels))).toNat / 65536))) ∧
        (∀ i, colour i = Config.board.hsv
          (BitVec.ofNat 16 (t.ase.hueAcc.toNat + (hueOffsetAt Config.board i).toNat)) (255 - decay i) 127) ∧
        (∀ i, i < Config.board.nPixels → t.ase.pxAt i = if decay i = 0 then normal i else colour i) ∧
        (∀ i, i < Config.board.nPixels →
          (t.ase.decayAt i).toNat = (decay i).toNat - (s.env.now - s.ase.lastUpdate).toNat / 4) ∧
        (∀ i, Config.board.nPixels ≤ i → t.ase.decayAt i = s.ase.decayAt i ∧ t.ase.pxAt i = s.ase.pxAt i) ∧
        t.env = { s.env with
          rsp := some 1
          out := s.env.out ++ (List.range Config.board.nPixels).map (fun i => .pxWrite i (normal i)) ++
            (List.range Config.board.nPixels).filterMap
              (fun i => if decay i = 0 then none else some (.pxWrite i (colour i))) ++ [.flush]
          draws := s.env.draws.drop Config.board.nPixels
          drawn := s.env.drawn + (Config.board.nPixels - s.env.draws.length) }

/-- The four modes 0 to 3 render identically once no transition runs: the same step under another of them gives the
same state but for `MODE` (R113). -/
def Obligations.FourModesRenderAlike : Prop :=
  ∀ (s t : State) (m : Mode), s.ase.transitioning = false → s.ase.mode ≠ .calibration → s.ase.mode ≠ .flagTweak →
    m ≠ .calibration → m ≠ .flagTweak → exec .animStep s = .next t →
    exec .animStep { s with ase := { s.ase with mode := m } } = .next { t with ase := { t.ase with mode := m } }

/-- A calibration frame, in naturals: the brightness from the absolute tick, the two hues, and nothing else (R121;
decisions D6, D13). -/
def Obligations.CalibrationFrame : Prop :=
  ∀ s : State, Config.board.animInterval ≤ s.env.now - s.ase.lastUpdate → s.ase.transitioning = false →
    s.ase.mode = .calibration →
    ∃ (t : State) (value : Byte) (colour : Nat → Word), exec .animStep s = .next t ∧
      value.toNat = 255 *
        (Config.board.sineNorm (BitVec.ofNat 32 (s.env.now.toNat / 2 % 2000 * 65536 / 2000))).toNat / 65536 ∧
      (∀ i, colour i =
        if i % 2 = 0 then Config.board.hsv 50000 255 value else Config.board.hsv 10000 255 (255 - value)) ∧
      (∀ i, i < Config.board.nPixels → t.ase.pxAt i = colour i) ∧
      t.env = { s.env with
        rsp := some 1
        out := s.env.out ++ (List.range Config.board.nPixels).map (fun i => .pxWrite i (colour i)) ++ [.flush] } ∧
      t.hsc = s.hsc ∧
      t.ase = { s.ase with lastUpdate := s.env.now, px := t.ase.px } ∧
      ∀ i, Config.board.nPixels ≤ i → t.ase.pxAt i = s.ase.pxAt i

/-- For every tick, and on every block that can be built, the brightness of the even and of the odd pixels of a
calibration frame sum to exactly 255 (R122; decision D13). -/
def Obligations.CalibrationPairsSumTo255 : Prop :=
  (∀ s : State, exec .animStep s = .next (animStepOn Config.board s)) ∧
  ∀ (b : Board) (s : State), b.animInterval ≤ s.env.now - s.ase.lastUpdate → s.ase.transitioning = false →
    s.ase.mode = .calibration →
    ∃ even odd : Byte, even.toNat + odd.toNat = 255 ∧
      ∀ i, i < b.nPixels → (animStepOn b s).ase.pxAt i = if i % 2 = 0 then b.hsv 50000 255 even else b.hsv 10000 255 odd

/-- A tweak frame: the events in order, the colour of every pixel, and the brightness of pixels 4 to 6 in integers,
for every value of `TWEAK_LFO` (R123; decisions D6, D14). -/
def Obligations.TweakFrame : Prop :=
  ∀ s : State, Config.board.animInterval ≤ s.env.now - s.ase.lastUpdate → s.ase.transitioning = false →
    s.ase.mode = .flagTweak →
    ∃ t, exec .animStep s = .next t ∧ ∃ (c : Word),
      c = Config.board.hsv 10922 255 (BitVec.ofInt 8
        (max (-2147483648) (min 2147483647
          (255 * (min 2147483647 (s.ase.tweakLfo.toInt + 65536)).tdiv 2)) / 65536)) ∧
      (∀ i, i < Config.board.nPixels → t.ase.pxAt i =
        if i < 2 then (if s.ase.tweakCastor then Config.board.castorColor else 0)
        else if i < 4 then (if s.ase.tweakPollux then Config.board.polluxColor else 0)
        else c) ∧
      t.env = { s.env with
        rsp := some 1
        out := s.env.out ++ (List.range Config.board.nPixels).map (fun i => .pxWrite i 0) ++
          (((if s.ase.tweakCastor then [(0, Config.board.castorColor), (1, Config.board.castorColor)] else []) ++
            (if s.ase.tweakPollux then [(2, Config.board.polluxColor), (3, Config.board.polluxColor)] else []) ++
            [(4, c), (5, c), (6, c)]).filter (fun p : Nat × Word => decide (p.1 < Config.board.nPixels))).map
              (fun p : Nat × Word => .pxWrite p.1 p.2) ++ [.flush] } ∧
      t.hsc = s.hsc ∧
      t.ase = { s.ase with lastUpdate := s.env.now, px := t.ase.px } ∧
      ∀ i, Config.board.nPixels ≤ i → t.ase.pxAt i = s.ase.pxAt i

/-- With both voices disabled, on every block that can be built, pixels 0 to 3 of a tweak frame are exactly zero, and
pixels 4 to 6 are equal to each other, those that exist (R124; decision D14). -/
def Obligations.TweakPixelsDark : Prop :=
  (∀ s : State, exec .animStep s = .next (animStepOn Config.board s)) ∧
  ∀ (b : Board) (s : State), b.animInterval ≤ s.env.now - s.ase.lastUpdate → s.ase.transitioning = false →
    s.ase.mode = .flagTweak → s.ase.tweakCastor = false → s.ase.tweakPollux = false →
    (∀ i, i < 4 → i < b.nPixels → (animStepOn b s).ase.pxAt i = 0) ∧
    ∀ i j, 4 ≤ i → i < b.nPixels → 4 ≤ j → j < b.nPixels → (animStepOn b s).ase.pxAt i = (animStepOn b s).ase.pxAt j

/-- Beyond 32767 ticks the phase increments are those of 32767, which are 0x20C45A and 0xEE4E3, and one step of at
least 1001 ticks ends a transition whatever `PHASE` was (R127; decision D31). -/
def Obligations.LargeDeltaSaturates : Prop :=
  (∀ delta : Word, 32767 ≤ delta.toNat →
    fxDiv (fxFromUint delta) (fxFromUint 1000) = 0x0020C45A ∧ fxDiv (fxFromUint delta) (fxFromUint 2200) = 0x000EE4E3) ∧
  ∀ s : State, Config.board.animInterval ≤ s.env.now - s.ase.lastUpdate → s.ase.transitioning = true →
    0 ≤ s.ase.phase.toInt → 1001 ≤ (s.env.now - s.ase.lastUpdate).toNat →
    ∃ t, exec .animStep s = .next t ∧ t.ase.transitioning = false

/-- The brightness of a transition never rises as `PHASE` grows, from full at 0 to black at 1.0 and beyond (R116, T3;
decision D11). -/
def Obligations.TransitionFadesOut : Prop :=
  transValue 0 = 255 ∧
  (∀ p q : Fix16, 0 ≤ p.toInt → p.toInt ≤ q.toInt → (transValue q).toNat ≤ (transValue p).toNat) ∧
  ∀ p : Fix16, 65536 ≤ p.toInt → transValue p = 0

/-- A transition that no command disturbs is over after at most 1009 effective steps, whatever their ticks and
whatever `ANIM_INTERVAL` is (R125; decision D6). -/
def Obligations.TransitionEndsWithin1009Steps : Prop :=
  ∀ (ts : List Word) (s : State), 0 ≤ s.ase.phase.toInt → 1009 ≤ (effectiveDeltas s.ase.lastUpdate ts).length →
    ∃ t, animRun ts s = .next t ∧ t.ase.transitioning = false

/-- In normal rendering `HUE_ACC` is the sum of the effective deltas times 5, modulo 65536, for any sequence of
`ANIM_STEP`s at any ticks, from any value the register can hold (R118; decision D7). -/
def Obligations.HueIsFiveTimesTheDeltas : Prop :=
  ∀ (ts : List Word) (s : State), s.ase.transitioning = false → s.ase.mode ≠ .calibration → s.ase.mode ≠ .flagTweak →
    s.ase.hueAcc.toNat ≤ 65535 →
    ∃ t, animRun ts s = .next t ∧
      t.ase.hueAcc.toNat = (s.ase.hueAcc.toNat + 5 * (effectiveDeltas s.ase.lastUpdate ts).sum) % 65536

/-- The normal renderer's brightness never goes below 20, on every block that can be built, so that under HSV_NONBLACK
no pixel holds black after an effective step in modes 0 to 3, sparkles included (R118, R33, T9; decisions D8, D9). -/
def Obligations.NormalBrightnessHasFloor : Prop :=
  (∀ (b : Board) (phase : Fix16) (i : Nat),
    20 ≤ (normalValue b phase i).toNat ∧
    (b.HsvNonblack → ∀ hueAcc : Word, normalColour b phase hueAcc i ≠ 0)) ∧
  (∀ s : State, exec .animStep s = .next (animStepOn Config.board s)) ∧
  ∀ (b : Board) (s : State), b.HsvNonblack → b.animInterval ≤ s.env.now - s.ase.lastUpdate →
    s.ase.transitioning = false → s.ase.mode ≠ .calibration → s.ase.mode ≠ .flagTweak →
    ∀ i, i < b.nPixels → (animStepOn b s).ase.pxAt i ≠ 0

/-- `k` decrements of `delta / 4` take a decay to exactly `d - k * (delta / 4)`, never below 0; with `delta` at least
4 it is 0 after 255 of them (R120; decision D10). -/
def Obligations.DecayReachesZero : Prop :=
  ∀ (delta : Word) (d : Byte) (k : Nat),
    ((decayedBy delta)^[k] d).toNat = d.toNat - k * (delta.toNat / 4) ∧
    (4 ≤ delta.toNat → 255 ≤ k → (decayedBy delta)^[k] d = 0)

/-- No step of the machine raises a decay but an `ANIM_STEP` of modes 0 to 3, outside a transition, whose draw for that
pixel triggers (R31, R126; decision D10). -/
def Obligations.DecayRisesOnlyByTrigger : Prop :=
  ∀ (s t : State) (i : Nat), step s = .next t →
    (t.ase.decayAt i).toNat ≤ (s.ase.decayAt i).toNat ∨
    (s.Runs .animStep ∧ s.ase.transitioning = false ∧ s.ase.mode ≠ .calibration ∧ s.ase.mode ≠ .flagTweak ∧
      i < Config.board.nPixels ∧ (s.env.drawAt i).toNat % 400 = 0)

/-! ## Pulse commands and the bring-up -/

/-- `PULSE_INIT` is accepted: the sequencer starts at row 1, the port is closed, and there is no response yet (R140;
decision D22). -/
def Obligations.PulseInitStartsBringUp : Prop :=
  encode .pulseInit = 0x8000000000 ∧
  ∀ s : State, ∃ t, exec .pulseInit s = .next t ∧
    t = { s with hsc := { s.hsc with pinitState := 1 }, env := { s.env with rsp := none } } ∧ t.hsc.portOpen = false

/-- Rows 1 to 3 of the bring-up: the clocks, the generator, and the timer-unit reset of both channels (R141, R142;
decision D22). -/
def Obligations.BringUpRowsClocksAndReset : Prop :=
  ∀ s : State, s.nextEvent = .host →
    (s.hsc.pinitState = 1 → step s = .next { s.afterEvent with hsc := { s.hsc with
      pinitState := 2, ch0 := { s.hsc.ch0 with clkEn := true }, ch1 := { s.hsc.ch1 with clkEn := true } } }) ∧
    (s.hsc.pinitState = 2 → step s = .next { s.afterEvent with hsc := { s.hsc with pinitState := 3, gclkEn := true } }) ∧
    (s.hsc.pinitState = 3 → step s = .next { s.afterEvent with hsc := { s.hsc with
      pinitState := 4, intflag := false, inten := false,
      ch0 := { Channel.reset with clkEn := s.hsc.ch0.clkEn, pmux := s.hsc.ch0.pmux, swrstBusy := true }
      ch1 := { Channel.reset with clkEn := s.hsc.ch1.clkEn, pmux := s.hsc.ch1.pmux, swrstBusy := true } } })

/-- Rows 5 to 8 of the bring-up: prescaler, waveform, placeholder period, pins (R141; decision D22). -/
def Obligations.BringUpRowsConfigure : Prop :=
  ∀ s : State, s.nextEvent = .host →
    (s.hsc.pinitState = 5 → step s = .next { s.afterEvent with hsc := { s.hsc with
      pinitState := 6
      ch0 := { s.hsc.ch0 with presc := Config.board.cfgDiv .ch0 }
      ch1 := { s.hsc.ch1 with presc := Config.board.cfgDiv .ch1 } } }) ∧
    (s.hsc.pinitState = 6 → step s = .next { s.afterEvent with hsc := { s.hsc with
      pinitState := 7, ch0 := { s.hsc.ch0 with wave := true }, ch1 := { s.hsc.ch1 with wave := true } } }) ∧
    (s.hsc.pinitState = 7 → step s = .next { s.afterEvent with hsc := { s.hsc with
      pinitState := 8
      ch0 := { s.hsc.ch0 with per := Config.board.perPlaceholder, perb := Config.board.perPlaceholder }
      ch1 := { s.hsc.ch1 with per := Config.board.perPlaceholder, perb := Config.board.perPlaceholder } } }) ∧
    (s.hsc.pinitState = 8 → step s = .next { s.afterEvent with hsc := { s.hsc with
      pinitState := 9, ch0 := { s.hsc.ch0 with pmux := true }, ch1 := { s.hsc.ch1 with pmux := true } } })

/-- Rows 9, 11 and 13 of the bring-up: the two enables, the overflow interrupt and the response (R141; decision D22).
-/
def Obligations.BringUpRowsEnable : Prop :=
  ∀ s : State, s.nextEvent = .host →
    (s.hsc.pinitState = 9 → step s = .next { s.afterEvent with hsc := { s.hsc with
      pinitState := 10, ch0 := { s.hsc.ch0 with enable := true, enableBusy := true } } }) ∧
    (s.hsc.pinitState = 11 → step s = .next { s.afterEvent with hsc := { s.hsc with
      pinitState := 12, ch1 := { s.hsc.ch1 with enable := true, enableBusy := true } } }) ∧
    (s.hsc.pinitState = 13 → step s = .next { s.afterEvent with
      hsc := { s.hsc with pinitState := 0, inten := true }
      env := { s.afterEvent.env with rsp := some 0 } })

/-- Rows 4, 10 and 12 wait for their acknowledge without limit: while it is missing the host's step changes nothing,
and when it has come the row only moves on (R141, R146; decision D22). -/
def Obligations.BringUpRowsWait : Prop :=
  ∀ s : State, s.nextEvent = .host → ∀ (n : BitVec 4) (waits : Bool),
    (n = 4 ∧ waits = (s.hsc.ch0.swrstBusy || s.hsc.ch1.swrstBusy)) ∨ (n = 10 ∧ waits = s.hsc.ch0.enableBusy) ∨
      (n = 12 ∧ waits = s.hsc.ch1.enableBusy) →
    s.hsc.pinitState = n →
    step s = .next (if waits then s.afterEvent else { s.afterEvent with hsc := { s.hsc with pinitState := n + 1 } })

/-- What the rows already run have set up stays set up until the bring-up ends, whichever agents move in between
(R141, R143; decision D22). -/
def Obligations.StepKeepsBringUp : Prop :=
  ∀ s t : State, s.hsc.BringUp Config.board → step s = .next t → t.hsc.BringUp Config.board

/-- The bound on the handler's latency, from the overflow that sets the pending flag to the handler, whether or not the
interrupt is enabled: a count of channel 1 that would break it gives way to the handler, every other move and every board
without a bound leave the choice free, the counts of channel 1 are kept from that overflow on, and no step breaks the bound,
whoever moves (R179, R176; decision D21; that the move gives way in this form is log 12). -/
def Obligations.HandlerLatencyIsBounded : Prop :=
  (∀ (b : Board) (s : State) (e : Event),
    (∀ n, b.irqLatencyMax = some n → e = .timer .ch1 → s.hsc.timerEnabled .ch1 = true → s.hsc.intflag = true →
      n ≤ s.env.waited → s.arbitrate b e = .handler) ∧
    (b.irqLatencyMax = none ∨ e ≠ .timer .ch1 ∨ s.hsc.timerEnabled .ch1 = false ∨ s.hsc.intflag = false ∨
      (∃ n, b.irqLatencyMax = some n ∧ s.env.waited < n) → s.arbitrate b e = e)) ∧
  (∀ s : State, s.nextEvent = s.arbitrate Config.board s.scheduled ∧
    (s.hsc.intflag = false → s.afterEvent.env.waited = 0) ∧
    (s.hsc.intflag = true → s.afterEvent.env.waited = s.env.waited +
      if s.nextEvent = .timer .ch1 ∧ s.hsc.timerEnabled .ch1 = true then 1 else 0)) ∧
  ∀ s t : State, s.Prompt Config.board → step s = .next t → t.Prompt Config.board

/-- The net effect of a bring-up, at its last row, from any state that the two invariants allow (R143; decision D22).
-/
def Obligations.BringUpNetEffect : Prop :=
  ∀ s : State, s.hsc.BringUp Config.board → s.hsc.Sound → s.hsc.pinitState = 13 → s.nextEvent = .host →
    ∃ t, step s = .next t ∧ t.hsc.clkctrl = 0b111 ∧ t.hsc.inten = true ∧ t.hsc.pinitState = 0 ∧
      t.env.rsp = some 0 ∧ t.hsc.hardSync = s.hsc.hardSync ∧ t.hsc.intflag = s.hsc.intflag ∧ t.ase = s.ase ∧
      ∀ c, (t.hsc.chan c).ctrl = Config.board.cfgDiv c ++ 0b11#2 ∧ (t.hsc.chan c).syncbusy = 0 ∧
        (t.hsc.chan c).per = Config.board.perPlaceholder ∧ (t.hsc.chan c).perb = Config.board.perPlaceholder ∧
        (t.hsc.chan c).cc = 0 ∧ (t.hsc.chan c).ccb = 0 ∧ (t.hsc.chan c).pmux = true ∧
        (t.hsc.chan c).pwmOut = false ∧ (t.hsc.chan c).count ≤ Config.board.perPlaceholder

/-- `PULSE_SET_PERIOD` to channel 0 or 1: both buffered registers, in one step, and nothing else (R147; decision D19).
-/
def Obligations.SetPeriodWritesBuffers : Prop :=
  ∀ (ch : BitVec 4) (period : Word),
    encode (.pulseSetPeriod ch period) = 0x9000000000 + (ch.setWidth 40 <<< 32) + period.setWidth 40 ∧
    ∀ s : State,
      (ch = 0 → exec (.pulseSetPeriod ch period) s = .next { s with
        hsc := { s.hsc with ch0 := { s.hsc.ch0 with perb := period, ccb := BitVec.ofNat 32 (period.toNat / 2) } }
        env := { s.env with rsp := some 0 } }) ∧
      (ch = 1 → exec (.pulseSetPeriod ch period) s = .next { s with
        hsc := { s.hsc with ch1 := { s.hsc.ch1 with perb := period, ccb := BitVec.ofNat 32 (period.toNat / 2) } }
        env := { s.env with rsp := some 0 } })

/-- `PULSE_SET_PERIOD` with a channel from 2 to 15 is a no-op (R148). -/
def Obligations.SetPeriodIgnoresOtherChannels : Prop :=
  ∀ (ch : BitVec 4) (period : Word) (s : State), 2 ≤ ch.toNat →
    exec (.pulseSetPeriod ch period) s = .next { s with env := { s.env with rsp := some 0 } }

/-- A period programmed into channel 0 reads back at once through `RDREG`, and the compare value is its half (T8,
R147, R160; decisions D5, D19). -/
def Obligations.PeriodReadsBack : Prop :=
  ∀ (period : Word) (s : State), ∃ t u v : State, exec (.pulseSetPeriod 0 period) s = .next t ∧
    exec (.rdreg 0x33) t = .next u ∧ u.env.rsp = some period ∧
    exec (.rdreg 0x35) u = .next v ∧ v.env.rsp = some (BitVec.ofNat 32 (period.toNat / 2)) ∧
    t.hsc.ch0.per = s.hsc.ch0.per ∧ t.hsc.ch0.cc = s.hsc.ch0.cc

/-- `PULSE_SET_HARD_SYNC`: the flag and nothing else, at any time; no row of a bring-up and no run of the handler
changes it afterwards (R150). -/
def Obligations.SetHardSyncWritesFlag : Prop :=
  (∀ e : Bool, (encode (.pulseSetHardSync e)).toNat = 0xA000000000 + e.toNat ∧
    ∀ s : State, exec (.pulseSetHardSync e) s =
      .next { s with hsc := { s.hsc with hardSync := e }, env := { s.env with rsp := some 0 } }) ∧
  ∀ (b : Board) (h : Hsc), (∀ n, (rowAction b n h).hardSync = h.hardSync) ∧
    (h.takeOverflowInterrupt b).hardSync = h.hardSync

/-! ## Moves the spec gives no step, and RDREG -/

/-- MODEL'S CHOICE (log 8, log 11), no rule of the spec: a move of an agent that is not enabled, and a move of a host with
nothing to issue, change nothing but the schedule; and the reset input leaves the words the host still has to issue. -/
def Obligations.DisabledMovesChangeNothing : Prop :=
  ∀ s : State,
    (∀ c, s.nextEvent = .timer c →
      (s.hsc.chan c).enable = false ∨ (s.hsc.chan c).clkEn = false ∨ s.hsc.gclkEn = false → step s = .next s.afterEvent) ∧
    (s.nextEvent = .handler → s.hsc.intflag = false ∨ s.hsc.inten = false → step s = .next s.afterEvent) ∧
    (∀ c k, s.nextEvent = .ack c k →
      (s.hsc.chan c).clkEn = false ∨ s.hsc.gclkEn = false ∨ (s.hsc.chan c).busy k = false →
      step s = .next s.afterEvent) ∧
    (s.nextEvent = .host → s.hsc.pinitState = 0 → s.env.cmds = [] → step s = .next s.afterEvent) ∧
    (s.nextEvent = .reset → ∃ t, step s = .next t ∧ t.env = { s.afterEvent.env with rsp := none } ∧
      t.env.cmds = s.env.cmds)

/-- The response of `RDREG` by register number, with the field layout of the narrow registers; an unimplemented number
gives 0; it changes nothing but the response, so a second `RDREG` reads the same (R67, R160, R161; decisions D4, D5). -/
def Obligations.RdregReadsByNumber : Prop :=
  ∀ (n : BitVec 8) (s : State), encode (.rdreg n) = 0xF000000000 + n.setWidth 40 ∧ ∃ v : Word,
    exec (.rdreg n) s = .next { s with env := { s.env with rsp := some v } } ∧
    exec (.rdreg n) { s with env := { s.env with rsp := some v } } = .next { s with env := { s.env with rsp := some v } } ∧
    (n = 0x00 → v.toNat = s.ase.mode.code.toNat) ∧
    (n = 0x01 → v = s.ase.lastUpdate) ∧ (n = 0x02 → v = s.ase.phase) ∧ (n = 0x03 → v = s.ase.hueAcc) ∧
    (n = 0x04 → v.toNat = s.ase.transitioning.toNat) ∧ (n = 0x05 → v = s.ase.tweakLfo) ∧
    (n = 0x06 → v.toNat = 2 * s.ase.tweakPollux.toNat + s.ase.tweakCastor.toNat) ∧
    (∀ i, i < 7 → n.toNat = 0x08 + i → v.toNat = (s.ase.decayAt i).toNat) ∧
    (∀ i, i < 7 → n.toNat = 0x10 + i → v = s.ase.pxAt i) ∧
    (n = 0x20 → v.toNat = s.hsc.hardSync.toNat) ∧ (n = 0x21 → v.toNat = s.hsc.pinitState.toNat) ∧
    (n = 0x22 → v.toNat = s.hsc.intflag.toNat) ∧ (n = 0x23 → v.toNat = s.hsc.inten.toNat) ∧
    (n = 0x24 → v.toNat = 4 * s.hsc.gclkEn.toNat + 2 * s.hsc.ch1.clkEn.toNat + s.hsc.ch0.clkEn.toNat) ∧
    (∀ (c : Chan) (base : Nat), (c = .ch0 ∧ base = 0x30) ∨ (c = .ch1 ∧ base = 0x38) →
      (n.toNat = base → v.toNat =
        4 * (s.hsc.chan c).presc.toNat + 2 * (s.hsc.chan c).wave.toNat + (s.hsc.chan c).enable.toNat) ∧
      (n.toNat = base + 1 → v.toNat = 2 * (s.hsc.chan c).enableBusy.toNat + (s.hsc.chan c).swrstBusy.toNat) ∧
      (n.toNat = base + 2 → v = (s.hsc.chan c).per) ∧ (n.toNat = base + 3 → v = (s.hsc.chan c).perb) ∧
      (n.toNat = base + 4 → v = (s.hsc.chan c).cc) ∧ (n.toNat = base + 5 → v = (s.hsc.chan c).ccb) ∧
      (n.toNat = base + 6 → v = (s.hsc.chan c).count) ∧
      (n.toNat = base + 7 → v.toNat = 2 * (s.hsc.chan c).pwmOut.toNat + (s.hsc.chan c).pmux.toNat)) ∧
    (n = 0x07 ∨ n = 0x0F ∨ (0x17 ≤ n.toNat ∧ n.toNat ≤ 0x1F) ∨ (0x25 ≤ n.toNat ∧ n.toNat ≤ 0x2F) ∨ 0x40 ≤ n.toNat →
      v = 0)

/-! ## Timers, interrupt, acknowledges, reset -/

/-- A tick of channel `c`, when enabled: it counts one while below its period and overflows at or above it (R180; decision
D17). -/
def Obligations.TimerTickCounts : Prop :=
  ∀ (s : State) (c : Chan), s.nextEvent = .timer c →
    ((s.hsc.chan c).enable = true → (s.hsc.chan c).clkEn = true → s.hsc.gclkEn = true →
      (s.hsc.chan c).count.toNat < (s.hsc.chan c).per.toNat →
      ∃ t, step s = .next t ∧ t = { s.afterEvent with hsc := t.hsc } ∧
        t.hsc = s.hsc.onChan c (fun ch => { ch with count := ch.count + 1 }) ∧
        (t.hsc.chan c).count.toNat = (s.hsc.chan c).count.toNat + 1) ∧
    ((s.hsc.chan c).enable = true → (s.hsc.chan c).clkEn = true → s.hsc.gclkEn = true →
      (s.hsc.chan c).per.toNat ≤ (s.hsc.chan c).count.toNat →
      step s = .next { s.afterEvent with hsc := s.hsc.overflow c })

/-- A tick at or above the period is an overflow: the count returns to 0, both live registers take the buffered values
in that step, and channel 0, and only it, pends the interrupt, whether or not it is enabled (R181; decision D18). -/
def Obligations.OverflowLatchesBuffers : Prop :=
  ∀ (s : State) (c : Chan), s.nextEvent = .timer c →
    (s.hsc.chan c).enable = true → (s.hsc.chan c).clkEn = true → s.hsc.gclkEn = true →
    (s.hsc.chan c).per.toNat ≤ (s.hsc.chan c).count.toNat →
    ∃ t, step s = .next t ∧
      (c = .ch0 → t = { s.afterEvent with hsc := { s.hsc with
        intflag := true, ch0 := { s.hsc.ch0 with count := 0, per := s.hsc.ch0.perb, cc := s.hsc.ch0.ccb } } }) ∧
      (c = .ch1 → t = { s.afterEvent with hsc := { s.hsc with
        ch1 := { s.hsc.ch1 with count := 0, per := s.hsc.ch1.perb, cc := s.hsc.ch1.ccb } } })

/-- The handler, when pending and enabled, clears the flag and retriggers channel 1 if `HARD_SYNC` is set, latching
the buffers only where `RETRIGGER_UPDATES` is set (R175, R182; decisions D20, D21). -/
def Obligations.HandlerServesOverflow : Prop :=
  ∀ s : State, s.nextEvent = .handler → s.hsc.intflag = true → s.hsc.inten = true →
    step s = .next { s.afterEvent with hsc := { s.hsc with
      intflag := false
      ch1 := if s.hsc.hardSync then { s.hsc.ch1 with
          count := 0
          per := if Config.board.retriggerUpdates then s.hsc.ch1.perb else s.hsc.ch1.per
          cc := if Config.board.retriggerUpdates then s.hsc.ch1.ccb else s.hsc.ch1.cc }
        else s.hsc.ch1 } }

/-- Hard sync end to end: an overflow of channel 0 and then its handler restart channel 1's counter when `HARD_SYNC`
is set and leave it when it is not (T10, R175, R181; decisions D18, D20). -/
def Obligations.HardSyncRestartsChannelOne : Prop :=
  ∀ (s : State) (es : List Event), s.env.events = .timer .ch0 :: .handler :: es →
    s.hsc.timerEnabled .ch0 = true → s.hsc.ch0.per ≤ s.hsc.ch0.count → s.hsc.inten = true →
    ∃ t u, step s = .next t ∧ step t = .next u ∧ t.hsc.intflag = true ∧ t.hsc.ch1 = s.hsc.ch1 ∧
      u.hsc.intflag = false ∧ u.hsc.ch0 = t.hsc.ch0 ∧
      u.hsc.ch1.count = (if s.hsc.hardSync then 0 else s.hsc.ch1.count)

/-- The pending interrupt stays pending until the handler runs, a bring-up resets the timer units, or the block is
reset (R174; decision D18). -/
def Obligations.PendingFlagIsKept : Prop :=
  ∀ s t : State, step s = .next t → s.hsc.intflag = true → t.hsc.intflag = false →
    (s.nextEvent = .handler ∧ s.hsc.inten = true) ∨ s.RunsRow 3 ∨ s.nextEvent = .reset

/-- An acknowledge event, when the clocks are on and the bit it clears is set, clears that bit and nothing else (R183;
decision D22). -/
def Obligations.AcknowledgeClearsBusyBit : Prop :=
  ∀ (s : State) (c : Chan) (k : AckKind), s.nextEvent = .ack c k →
    (s.hsc.chan c).clkEn = true → s.hsc.gclkEn = true → (s.hsc.chan c).busy k = true →
    step s = .next { s.afterEvent with hsc := s.hsc.onChan c (fun ch => match k with
      | .swrst => { ch with swrstBusy := false }
      | .enable => { ch with enableBusy := false }) }

/-- The waveform over one undisturbed period: from count 0, with the compare at half the period, the output is high
for exactly `PER >> 1` of the `PER + 1` ticks, those at the start, and then the count is 0 again (R184, R47; decision
D17). -/
def Obligations.HalfDutyOverOnePeriod : Prop :=
  ∀ (h : Hsc) (c : Chan), h.timerEnabled c = true → (h.chan c).wave = true → (h.chan c).pmux = true →
    (h.chan c).count = 0 → (h.chan c).cc = (h.chan c).per >>> 1 →
    (∀ k, k ≤ (h.chan c).per.toNat →
      ((((fun x : Hsc => x.tick c)^[k] h).chan c).pwmOut = decide (k < (h.chan c).per.toNat / 2))) ∧
    (((fun x : Hsc => x.tick c)^[(h.chan c).per.toNat + 1] h).chan c).count = 0

/-- After reset every register number reads 0 and both outputs are low (R51; decision D15). -/
def Obligations.ResetReadsZero : Prop :=
  (∀ n : BitVec 8, State.reset.readNumber n = 0) ∧ ∀ c, (State.reset.hsc.chan c).pwmOut = false

/-- The reset input, from any state: every register to its reset value, a bring-up and a pending interrupt dropped, no
response, no output event, and the collaborators (the tick, the random generator, what was put out) left alone (R200, R201;
decision D15). -/
def Obligations.ResetMoveClearsEveryRegister : Prop :=
  ∀ s : State, s.nextEvent = .reset → ∃ t, step s = .next t ∧ (∀ r : RegName, t.readReg r = 0) ∧
    t.hsc.pinitState = 0 ∧ t.hsc.intflag = false ∧ t.ase = State.reset.ase ∧ t.hsc = State.reset.hsc ∧
    t.env.rsp = none ∧ t.env.now = s.env.now ∧ t.env.draws = s.env.draws ∧ t.env.drawn = s.env.drawn ∧
    t.env.out = s.env.out

/-! ## Invariants and whole-machine rules -/

/-- After reset every invariant of the model holds: the value invariants of R52, the progress of a bring-up, which every
idle state meets, and the bound on the handler's latency, which holds wherever no overflow is pending (R51, R52, R143,
R179; decisions D15, D21, D22). -/
def Obligations.ResetMeetsInvariants : Prop :=
  State.reset.Sound ∧
  State.reset.hsc.BringUp Config.board ∧ (∀ (b : Board) (h : Hsc), h.pinitState = 0 → h.BringUp b) ∧
  State.reset.Prompt Config.board ∧
    ∀ (b : Board) (s : State), s.hsc.intflag = false → s.Prompt b

/-- Every step keeps the value invariants of R52, whoever moves (R52). -/
def Obligations.StepKeepsSound : Prop := ∀ s t : State, s.Sound → step s = .next t → t.Sound

/-- A step that does not program channel `c` keeps its buffered registers equal to its live ones (R48; decision D18).
-/
def Obligations.BuffersStayEqualUntilProgrammed : Prop :=
  ∀ (s t : State) (c : Chan), step s = .next t →
    (s.hsc.chan c).perb = (s.hsc.chan c).per → (s.hsc.chan c).ccb = (s.hsc.chan c).cc →
    ((t.hsc.chan c).perb = (t.hsc.chan c).per ∧ (t.hsc.chan c).ccb = (t.hsc.chan c).cc) ∨
    ∃ ch period, selectedChan ch = some c ∧ s.Runs (.pulseSetPeriod ch period)

/-- The live registers of channel `c` change only at an overflow of it, at a retrigger that latches, in rows 3 and 7
of a bring-up, and at reset: a programmed period waits for the overflow (R72, R22; decisions D18, D20). -/
def Obligations.LiveRegistersChangeOnlyAtLatch : Prop :=
  ∀ (s t : State) (c : Chan), step s = .next t →
    ((t.hsc.chan c).per ≠ (s.hsc.chan c).per ∨ (t.hsc.chan c).cc ≠ (s.hsc.chan c).cc) →
    (s.nextEvent = .timer c ∧ (s.hsc.chan c).per ≤ (s.hsc.chan c).count ∧ (t.hsc.chan c).count = 0) ∨
    (s.nextEvent = .handler ∧ c = .ch1 ∧ s.hsc.hardSync = true ∧ Config.board.retriggerUpdates = true) ∨
    s.RunsRow 3 ∨ s.RunsRow 7 ∨ s.nextEvent = .reset

/-- Who can write each ASE register: nothing but the commands R22 names for it, in the modes whose renderer writes it,
and reset (R22, R126). -/
def Obligations.AseRegisterWriters : Prop :=
  ∀ s t : State, step s = .next t → s.nextEvent ≠ .reset →
    (t.ase.mode = s.ase.mode ∨ ∃ m, s.Runs (.animSetMode m)) ∧
    (t.ase.lastUpdate = s.ase.lastUpdate ∨ s.Runs .animInit ∨ s.Runs .animStep) ∧
    (t.ase.phase = s.ase.phase ∨ (∃ m, s.Runs (.animSetMode m)) ∨
      (s.Runs .animStep ∧ (s.ase.transitioning = true ∨ s.ase.mode ≠ .calibration ∧ s.ase.mode ≠ .flagTweak))) ∧
    (t.ase.hueAcc = s.ase.hueAcc ∨ (s.Runs .animStep ∧ s.ase.transitioning = false ∧
      s.ase.mode ≠ .calibration ∧ s.ase.mode ≠ .flagTweak)) ∧
    (t.ase.transitioning = s.ase.transitioning ∨ (∃ m, s.Runs (.animSetMode m)) ∨
      (s.Runs .animStep ∧ s.ase.transitioning = true)) ∧
    (t.ase.tweakLfo = s.ase.tweakLfo ∨ ∃ x, s.Runs (.tweakSetLfo x)) ∧
    ((t.ase.tweakCastor = s.ase.tweakCastor ∧ t.ase.tweakPollux = s.ase.tweakPollux) ∨
      ∃ x y, s.Runs (.tweakSetEn x y)) ∧
    (t.ase.decay = s.ase.decay ∨ (s.Runs .animStep ∧ s.ase.transitioning = false ∧
      s.ase.mode ≠ .calibration ∧ s.ase.mode ≠ .flagTweak)) ∧
    (t.ase.px = s.ase.px ∨ s.Runs .animStep) ∧
    (t.env.out = s.env.out ∨ s.Runs .animStep)

/-- Who can write each HSC register: nothing but what R22 names for it, and reset. `INTFLAG` is set by an enabled
overflow of channel 0 alone; `COUNT` moves at a tick, a retrigger and the timer-unit reset; `PER` and `CC` at a latch (R22,
R36, R46, R72, R174; decisions D18, D20, D22). -/
def Obligations.HscRegisterWriters : Prop :=
  ∀ s t : State, step s = .next t → s.nextEvent ≠ .reset →
    (t.hsc.hardSync = s.hsc.hardSync ∨ ∃ e, s.Runs (.pulseSetHardSync e)) ∧
    (t.hsc.pinitState = s.hsc.pinitState ∨ s.Runs .pulseInit ∨ ∃ n, s.RunsRow n) ∧
    (t.hsc.intflag = s.hsc.intflag ∨
      (t.hsc.intflag = true ∧ s.nextEvent = .timer .ch0 ∧ s.hsc.timerEnabled .ch0 = true ∧
        s.hsc.ch0.per ≤ s.hsc.ch0.count) ∨
      (t.hsc.intflag = false ∧ ((s.nextEvent = .handler ∧ s.hsc.inten = true) ∨ s.RunsRow 3))) ∧
    (t.hsc.inten = s.hsc.inten ∨ s.RunsRow 3 ∨ s.RunsRow 13) ∧
    (t.hsc.clkctrl = s.hsc.clkctrl ∨ s.RunsRow 1 ∨ s.RunsRow 2) ∧
    ∀ c, ((t.hsc.chan c).ctrl = (s.hsc.chan c).ctrl ∨
        s.RunsRow 3 ∨ s.RunsRow 5 ∨ s.RunsRow 6 ∨ (c = .ch0 ∧ s.RunsRow 9) ∨ (c = .ch1 ∧ s.RunsRow 11)) ∧
      ((t.hsc.chan c).pmux = (s.hsc.chan c).pmux ∨ s.RunsRow 8) ∧
      ((t.hsc.chan c).syncbusy = (s.hsc.chan c).syncbusy ∨
        s.RunsRow 3 ∨ (c = .ch0 ∧ s.RunsRow 9) ∨ (c = .ch1 ∧ s.RunsRow 11) ∨ ∃ k, s.nextEvent = .ack c k) ∧
      (((t.hsc.chan c).perb = (s.hsc.chan c).perb ∧ (t.hsc.chan c).ccb = (s.hsc.chan c).ccb) ∨
        s.RunsRow 3 ∨ s.RunsRow 7 ∨ ∃ ch period, selectedChan ch = some c ∧ s.Runs (.pulseSetPeriod ch period)) ∧
      ((t.hsc.chan c).count = (s.hsc.chan c).count ∨
        (s.nextEvent = .timer c ∧ s.hsc.timerEnabled c = true) ∨
        (c = .ch1 ∧ s.nextEvent = .handler ∧ s.hsc.handlerEnabled = true ∧ s.hsc.hardSync = true ∧
          (t.hsc.chan c).count = 0) ∨ s.RunsRow 3) ∧
      (((t.hsc.chan c).per = (s.hsc.chan c).per ∧ (t.hsc.chan c).cc = (s.hsc.chan c).cc) ∨
        (s.nextEvent = .timer c ∧ s.hsc.timerEnabled c = true ∧ (s.hsc.chan c).per ≤ (s.hsc.chan c).count) ∨
        (c = .ch1 ∧ s.nextEvent = .handler ∧ s.hsc.handlerEnabled = true ∧ s.hsc.hardSync = true ∧
          Config.board.retriggerUpdates = true) ∨ s.RunsRow 3 ∨ s.RunsRow 7)

/-- The two sub-blocks share nothing: an ASE command does the same whatever the HSC holds and leaves it, an HSC
command does the same whatever the ASE holds and leaves it, and so do a timer, an acknowledge, the handler and a row of the
bring-up (R3). -/
def Obligations.SubBlocksShareNothing : Prop :=
  (∀ (i : Instr) (s t : State) (h : Hsc),
    i ∈ [.animInit, .animStep] ∨ (∃ m, i = .animSetMode m) ∨ (∃ x, i = .tweakSetLfo x) ∨ (∃ x y, i = .tweakSetEn x y) →
    exec i s = .next t → t.hsc = s.hsc ∧ exec i { s with hsc := h } = .next { t with hsc := h }) ∧
  (∀ (i : Instr) (s t : State) (a : Ase),
    i = .pulseInit ∨ (∃ c p, i = .pulseSetPeriod c p) ∨ (∃ e, i = .pulseSetHardSync e) →
    exec i s = .next t → t.ase = s.ase ∧ exec i { s with ase := a } = .next { t with ase := a }) ∧
  ∀ (s t : State) (a : Ase), step s = .next t →
    (∃ c, s.nextEvent = .timer c) ∨ (∃ c k, s.nextEvent = .ack c k) ∨ s.nextEvent = .handler ∨
      (s.nextEvent = .host ∧ s.hsc.pinitState ≠ 0) →
    t.ase = s.ase ∧ step { s with ase := a } = .next { t with ase := a }
end

