-- ==== Sys2Proof/Laws/PerInstr.lean ====
section
/-! SUPPORT. Per command: its word decodes to it, every operand at every value of its field (R83, R84, R85). -/

namespace Sys2Proof.Laws

theorem opField_wordOf (op sel : BitVec 4) (imm : Word) : opField (wordOf op sel imm) = op := by
  apply BitVec.eq_of_toNat_eq
  have := op.isLt; have := sel.isLt; have := imm.isLt
  simp only [opField, wordOf, BitVec.extractLsb'_toNat, BitVec.toNat_append, Nat.shiftRight_eq_div_pow]
  rw [← Nat.shiftLeft_add_eq_or_of_lt sel.isLt, ← Nat.shiftLeft_add_eq_or_of_lt imm.isLt]
  simp only [Nat.shiftLeft_eq]
  omega

theorem selField_wordOf (op sel : BitVec 4) (imm : Word) : selField (wordOf op sel imm) = sel := by
  apply BitVec.eq_of_toNat_eq
  have := op.isLt; have := sel.isLt; have := imm.isLt
  simp only [selField, wordOf, BitVec.extractLsb'_toNat, BitVec.toNat_append, Nat.shiftRight_eq_div_pow]
  rw [← Nat.shiftLeft_add_eq_or_of_lt sel.isLt, ← Nat.shiftLeft_add_eq_or_of_lt imm.isLt]
  simp only [Nat.shiftLeft_eq]
  omega

theorem immField_wordOf (op sel : BitVec 4) (imm : Word) : immField (wordOf op sel imm) = imm := by
  apply BitVec.eq_of_toNat_eq
  have := op.isLt; have := sel.isLt; have := imm.isLt
  simp only [immField, wordOf, BitVec.extractLsb'_toNat, BitVec.toNat_append, Nat.shiftRight_eq_div_pow]
  rw [← Nat.shiftLeft_add_eq_or_of_lt sel.isLt, ← Nat.shiftLeft_add_eq_or_of_lt imm.isLt]
  simp only [Nat.shiftLeft_eq]
  omega

/-- The two formats with must-be-zero bits, on a word made of its fields. -/
theorem formatZ_wordOf (op : BitVec 4) (i : Instr) : formatZ (wordOf op 0 0) i = .ok i := by
  simp [formatZ, orReserved, selField_wordOf, immField_wordOf]

theorem formatI_wordOf (op : BitVec 4) (imm : Word) (width : Nat) (i : Instr) (h : imm >>> width = 0) :
    formatI (wordOf op 0 imm) width i = .ok i := by
  simp [formatI, orReserved, selField_wordOf, immField_wordOf, h]

namespace RoundTrip

/-- The word of the command decodes to the command. -/
def Statement (i : Instr) : Prop := decode (encode i) = .ok i

theorem animInit : Statement .animInit := by unfold Statement; decide
theorem animStep : Statement .animStep := by unfold Statement; decide
theorem pulseInit : Statement .pulseInit := by unfold Statement; decide

theorem animSetMode (mode : BitVec 3) : Statement (.animSetMode mode) := by revert mode; unfold Statement; decide

theorem tweakSetEn (castor pollux : Bool) : Statement (.tweakSetEn castor pollux) := by
  revert castor pollux; unfold Statement; decide

theorem pulseSetHardSync (e : Bool) : Statement (.pulseSetHardSync e) := by revert e; unfold Statement; decide

theorem rdreg (n : BitVec 8) : Statement (.rdreg n) := by
  have h : (n.setWidth 32 : Word) >>> 8 = 0#32 := by
    apply BitVec.eq_of_toNat_eq
    have := n.isLt
    simp only [BitVec.toNat_ushiftRight, BitVec.toNat_setWidth, Nat.shiftRight_eq_div_pow, BitVec.toNat_ofNat]
    omega
  have e : (n.setWidth 32 : Word).extractLsb' 0 8 = n := by
    apply BitVec.eq_of_toNat_eq
    have := n.isLt
    simp only [BitVec.extractLsb'_toNat, BitVec.toNat_setWidth, Nat.shiftRight_zero]
    omega
  simp only [Statement, encode, decode, opField_wordOf, immField_wordOf, e]
  exact formatI_wordOf _ _ _ _ h

theorem tweakSetLfo (x : Fix16) : Statement (.tweakSetLfo x) := by
  have h : x >>> 32 = 0#32 := by
    apply BitVec.eq_of_toNat_eq
    have := x.isLt
    simp only [BitVec.toNat_ushiftRight, Nat.shiftRight_eq_div_pow, BitVec.toNat_ofNat]
    omega
  simp only [Statement, encode, decode, opField_wordOf, immField_wordOf]
  exact formatI_wordOf _ _ _ _ h

theorem pulseSetPeriod (ch : BitVec 4) (period : Word) : Statement (.pulseSetPeriod ch period) := by
  simp only [Statement, encode, decode, opField_wordOf, immField_wordOf, selField_wordOf]
  rfl

end RoundTrip

end Sys2Proof.Laws
end

