-- ==== Sys2Proof/Laws/Decode.lean ====
section
/-! SUPPORT. Everything the decoder can answer, said once, by the value of the `op` field. -/

namespace Sys2Proof.Laws

theorem wordOf_fields (w : CmdWord) : wordOf (opField w) (selField w) (immField w) = w := by
  apply BitVec.eq_of_toNat_eq
  have := w.isLt
  simp only [opField, selField, immField, wordOf, BitVec.extractLsb'_toNat, BitVec.toNat_append,
    Nat.shiftRight_eq_div_pow]
  rw [← Nat.shiftLeft_add_eq_or_of_lt (by omega), ← Nat.shiftLeft_add_eq_or_of_lt (by omega)]
  simp only [Nat.shiftLeft_eq]
  omega

/-- The answers of the decoder (R85, R87). -/
inductive DecodeCase (w : CmdWord) : Except Reserved Instr → Prop
  | animInit (h : opField w = 0x1#4) : DecodeCase w (formatZ w .animInit)
  | animSetMode (h : opField w = 0x2#4) :
      DecodeCase w (formatI w 3 (.animSetMode ((immField w).extractLsb' 0 3)))
  | animStep (h : opField w = 0x3#4) : DecodeCase w (formatZ w .animStep)
  | tweakSetLfo (h : opField w = 0x4#4) : DecodeCase w (formatI w 32 (.tweakSetLfo (immField w)))
  | tweakSetEn (h : opField w = 0x5#4) :
      DecodeCase w (formatI w 2 (.tweakSetEn ((immField w).getLsbD 0) ((immField w).getLsbD 1)))
  | pulseInit (h : opField w = 0x8#4) : DecodeCase w (formatZ w .pulseInit)
  | pulseSetPeriod (h : opField w = 0x9#4) : DecodeCase w (.ok (.pulseSetPeriod (selField w) (immField w)))
  | pulseSetHardSync (h : opField w = 0xA#4) :
      DecodeCase w (formatI w 1 (.pulseSetHardSync ((immField w).getLsbD 0)))
  | rdreg (h : opField w = 0xF#4) : DecodeCase w (formatI w 8 (.rdreg ((immField w).extractLsb' 0 8)))
  | reserved (h : opField w ∈ [0x0#4, 0x6#4, 0x7#4, 0xB#4, 0xC#4, 0xD#4, 0xE#4]) :
      DecodeCase w (.error (.opcode (opField w)))

theorem op_cases : ∀ op : BitVec 4, op = 1#4 ∨ op = 2#4 ∨ op = 3#4 ∨ op = 4#4 ∨ op = 5#4 ∨ op = 8#4 ∨ op = 9#4 ∨
    op = 10#4 ∨ op = 15#4 ∨ op ∈ [0x0#4, 0x6#4, 0x7#4, 0xB#4, 0xC#4, 0xD#4, 0xE#4] := by decide

theorem decode_cases (w : CmdWord) : DecodeCase w (decode w) := by
  rcases op_cases (opField w) with h | h | h | h | h | h | h | h | h | h
  · have e : decode w = formatZ w .animInit := by simp only [decode, h]
    rw [e]; exact .animInit h
  · have e : decode w = formatI w 3 (.animSetMode ((immField w).extractLsb' 0 3)) := by simp only [decode, h]
    rw [e]; exact .animSetMode h
  · have e : decode w = formatZ w .animStep := by simp only [decode, h]
    rw [e]; exact .animStep h
  · have e : decode w = formatI w 32 (.tweakSetLfo (immField w)) := by simp only [decode, h]
    rw [e]; exact .tweakSetLfo h
  · have e : decode w = formatI w 2 (.tweakSetEn ((immField w).getLsbD 0) ((immField w).getLsbD 1)) := by
      simp only [decode, h]
    rw [e]; exact .tweakSetEn h
  · have e : decode w = formatZ w .pulseInit := by simp only [decode, h]
    rw [e]; exact .pulseInit h
  · have e : decode w = .ok (.pulseSetPeriod (selField w) (immField w)) := by simp only [decode, h]
    rw [e]; exact .pulseSetPeriod h
  · have e : decode w = formatI w 1 (.pulseSetHardSync ((immField w).getLsbD 0)) := by simp only [decode, h]
    rw [e]; exact .pulseSetHardSync h
  · have e : decode w = formatI w 8 (.rdreg ((immField w).extractLsb' 0 8)) := by simp only [decode, h]
    rw [e]; exact .rdreg h
  · have e : decode w = .error (.opcode (opField w)) := by
      simp only [List.mem_cons, List.not_mem_nil, or_false] at h
      rcases h with h | h | h | h | h | h | h <;> simp only [decode, h] <;> rfl
    rw [e]; exact .reserved h

/-- Format Z accepts exactly the words whose fields below `op` are zero (R83). -/
theorem formatZ_eq_ok {w : CmdWord} {i j : Instr} :
    formatZ w i = .ok j ↔ i = j ∧ selField w = 0 ∧ immField w = 0 := by
  simp only [formatZ, orReserved]
  split
  · next h => simp at h; simp [h]
  · next h => simp at h; simpa using fun _ => h

/-- Format I accepts exactly the words with `sel` zero and an operand of the width given (R83). -/
theorem formatI_eq_ok {w : CmdWord} {n : Nat} {i j : Instr} :
    formatI w n i = .ok j ↔ i = j ∧ selField w = 0 ∧ (immField w).toNat < 2 ^ n := by
  have hs : immField w >>> n = 0#32 ↔ (immField w).toNat < 2 ^ n := by
    rw [← BitVec.toNat_inj, BitVec.toNat_ushiftRight, Nat.shiftRight_eq_div_pow]
    simp [Nat.div_eq_zero_iff]
  simp only [formatI, orReserved]
  split
  · next h => simp [hs] at h; simp [h]
  · next h => simp [hs] at h; simpa using fun _ => h

end Sys2Proof.Laws
end

