-- ==== Sys2Proof/Laws/Fixed.lean ====
section
/-! SUPPORT. The fixed-point primitives as integers: each result read back with `toInt` (R13). -/

namespace Sys2Proof.Machine

theorem clamp_of_mem {x lo hi : Int} (h1 : lo ≤ x) (h2 : x ≤ hi) : clamp x lo hi = x := by
  simp only [clamp]; omega

theorem sat32_toInt (x : Int) : (sat32 x).toInt = clamp x (-2147483648) 2147483647 := by
  have h1 : -2147483648 ≤ clamp x (-2147483648) 2147483647 := by simp only [clamp]; omega
  have h2 : clamp x (-2147483648) 2147483647 ≤ 2147483647 := by simp only [clamp]; omega
  rw [sat32, BitVec.toInt_ofInt_eq_self (by decide) (by simpa using h1) (by simpa using Int.lt_add_one_of_le h2)]

theorem fxAdd_toInt (a b : Fix16) : (fxAdd a b).toInt = clamp (a.toInt + b.toInt) (-2147483648) 2147483647 :=
  sat32_toInt _

theorem fxSub_toInt (a b : Fix16) : (fxSub a b).toInt = clamp (a.toInt - b.toInt) (-2147483648) 2147483647 :=
  sat32_toInt _

theorem fxMul_toInt (a b : Fix16) :
    (fxMul a b).toInt = clamp ((a.toInt * b.toInt).fdiv 65536) (-2147483648) 2147483647 := sat32_toInt _

theorem fxDiv_toInt (a b : Fix16) (h : b ≠ 0) :
    (fxDiv a b).toInt = clamp ((a.toInt * 65536).tdiv b.toInt) (-2147483648) 2147483647 := by
  rw [fxDiv, if_neg h, sat32_toInt]

theorem fxFromUint_toInt (n : Word) : (fxFromUint n).toInt = ((min n.toNat 32767 * 65536 : Nat) : Int) := by
  rw [fxFromUint, BitVec.toInt_ofNat']
  norm_num [Int.bmod]
  omega

theorem fxOne_toInt : fxOne.toInt = 65536 := by decide

/-- A word that is not negative as a fix16 reads the same both ways. -/
theorem toInt_eq_toNat_of_nonneg {x : Fix16} (h : 0 ≤ x.toInt) : x.toInt = x.toNat := by
  rw [BitVec.toInt_eq_toNat_cond] at h ⊢
  have := x.isLt
  split at h <;> split <;> omega

/-- `delta` ticks over a positive divisor (R115, R117, R127). -/
theorem fxDiv_ticks (delta d : Word) (hd : 0 < d.toNat) (hd' : d.toNat ≤ 32767) :
    (fxDiv (fxFromUint delta) (fxFromUint d)).toInt =
      ((min 2147483647 (min delta.toNat 32767 * 65536 / d.toNat) : Nat) : Int) := by
  have hne : fxFromUint d ≠ 0 := by
    intro h
    have h2 := fxFromUint_toInt d
    have h0 : (0 : Fix16).toInt = 0 := by decide
    rw [h, h0] at h2
    omega
  rw [fxDiv_toInt _ _ hne, fxFromUint_toInt, fxFromUint_toInt, Nat.min_eq_left hd']
  have e : ((min delta.toNat 32767 * 65536 : Nat) : Int) * 65536
      = ((min delta.toNat 32767 * 65536 * 65536 : Nat) : Int) := by push_cast; ring
  rw [e, ← Int.ofNat_tdiv, Nat.mul_div_mul_right _ _ (by norm_num : 0 < 65536)]
  generalize min delta.toNat 32767 * 65536 / d.toNat = q
  simp only [clamp]
  omega

/-- The advance of a transition frame, as integers (R115). -/
theorem transPhase_toInt (phase : Fix16) (delta : Word) (h : 0 ≤ phase.toInt) :
    (transPhase phase delta).toInt = min 2147483647 (phase.toInt + ((min delta.toNat 32767 * 65536 / 1000 : Nat) : Int)) := by
  have e := fxDiv_ticks delta 1000 (by decide) (by decide)
  have h1000 : (1000 : Word).toNat = 1000 := rfl
  rw [transPhase, fxAdd_toInt, e, h1000]
  simp only [clamp]
  omega

/-- The brightness of a transition frame, as integers (R115). -/
theorem transValue_toNat (phase : Fix16) (h : 0 ≤ phase.toInt) :
    ((transValue phase).toNat : Int) = max 0 ((255 * (65536 - phase.toInt)) / 65536) := by
  have h2 : (fxFromUint 255).toInt = 255 * 65536 := by decide
  have hlt := phase.toInt_lt
  simp only [transValue, byteOf, fxToInt, fxMul_toInt, fxSub_toInt, h2, fxOne_toInt]
  rw [clamp_of_mem (x := 65536 - phase.toInt) (by omega) (by omega)]
  have e : (255 * 65536 * (65536 - phase.toInt)).fdiv 65536 = 255 * (65536 - phase.toInt) := by
    rw [Int.fdiv_eq_ediv_of_nonneg _ (by norm_num)]; omega
  rw [e, Int.fdiv_eq_ediv_of_nonneg _ (by norm_num), BitVec.toNat_ofInt]
  have key : clamp (clamp (255 * (65536 - phase.toInt)) (-2147483648) 2147483647 / 65536) 0 255
      = max 0 ((255 * (65536 - phase.toInt)) / 65536) := by
    simp only [clamp]
    rcases le_total (255 * (65536 - phase.toInt)) (-2147483648) with h3 | h3 <;> omega
  rw [key]
  omega

/-- The advance of a normal frame, as naturals (R117). -/
theorem normalPhase_toNat (phase : Fix16) (delta : Word) (h : 0 ≤ phase.toInt) :
    (normalPhase phase delta).toNat
      = min 2147483647 (phase.toNat + min delta.toNat 32767 * 65536 / 2200) % 65536 := by
  have e := fxDiv_ticks delta 2200 (by decide) (by decide)
  have h2200 : (2200 : Word).toNat = 2200 := rfl
  rw [h2200] at e
  have hp := toInt_eq_toNat_of_nonneg h
  have hs : (fxAdd phase (fxDiv (fxFromUint delta) (fxFromUint 2200))).toInt
      = ((min 2147483647 (phase.toNat + min delta.toNat 32767 * 65536 / 2200) : Nat) : Int) := by
    rw [fxAdd_toInt, e, hp]
    simp only [clamp]
    omega
  have hn := toInt_eq_toNat_of_nonneg (x := fxAdd phase (fxDiv (fxFromUint delta) (fxFromUint 2200))) (by omega)
  simp only [normalPhase, BitVec.toNat_setWidth]
  omega

/-- The hue accumulator after a normal frame, as naturals (R117). -/
theorem normalHueAcc_toNat (hueAcc delta : Word) :
    (normalHueAcc hueAcc delta).toNat = (hueAcc.toNat + 5 * delta.toNat) % 65536 := by
  have h5 : (5 : Word).toNat = 5 := rfl
  simp only [normalHueAcc, BitVec.toNat_setWidth, BitVec.toNat_add, BitVec.toNat_mul, h5]
  omega

/-- The decrement of the overlay, as naturals (R119). -/
theorem decayedBy_toNat (delta : Word) (d : Byte) : (decayedBy delta d).toNat = d.toNat - delta.toNat / 4 := by
  have hd := d.isLt
  simp only [decayedBy, BitVec.le_def, BitVec.toNat_setWidth, BitVec.toNat_ushiftRight, Nat.shiftRight_eq_div_pow]
  split
  · simp; omega
  · simp only [BitVec.toNat_setWidth, BitVec.toNat_sub, BitVec.toNat_ushiftRight, Nat.shiftRight_eq_div_pow]
    omega

/-! ## The brightness functions of the renderers -/

/-- The product of the sine and a small integer, floored (R117, R121). -/
theorem fxMul_sine (b : Board) (x : Fix16) (k : Word) (hk : k.toNat ≤ 255) :
    fxToInt (fxMul (b.sineNorm x) (fxFromUint k)) = (k.toNat * (b.sineNorm x).toNat / 65536 : Nat) := by
  have hx := b.sine_range x
  generalize b.sineNorm x = y at *
  have hy : y.toInt = y.toNat := BitVec.toInt_eq_toNat_of_lt (by omega)
  have hb : k.toNat * y.toNat ≤ 255 * 65536 := Nat.mul_le_mul hk hx
  have e : (y.toNat : Int) * ((k.toNat * 65536 : Nat) : Int) = ((k.toNat * y.toNat * 65536 : Nat) : Int) := by
    push_cast; ring
  rw [fxToInt, fxMul_toInt, fxFromUint_toInt, hy, Nat.min_eq_left (by omega), e]
  generalize k.toNat * y.toNat = p at *
  rw [Int.fdiv_eq_ediv_of_nonneg _ (by norm_num), Int.fdiv_eq_ediv_of_nonneg _ (by norm_num),
    clamp_of_mem (by omega) (by omega)]
  omega

/-- The phase offset of pixel `i`, as an integer (R117). -/
theorem pixelOffset_toInt (b : Board) (i : Nat) (hi : i < b.nPixels) :
    (pixelOffset b i).toInt = (i * 65536 / b.nPixels : Nat) := by
  have h7 := b.nPixels_le
  have h1 := b.nPixels_pos
  have e1 : (BitVec.ofNat 32 i).toNat = i := by simp; omega
  have e2 : (BitVec.ofNat 32 b.nPixels).toNat = b.nPixels := by simp; omega
  have := fxDiv_ticks (BitVec.ofNat 32 i) (BitVec.ofNat 32 b.nPixels) (by omega) (by omega)
  rw [pixelOffset, this, e1, e2, Nat.min_eq_left (by omega : i ≤ 32767)]
  have : i * 65536 / b.nPixels ≤ 65536 * 7 := (Nat.div_le_self _ _).trans (by omega)
  omega

/-- The brightness of a pixel in a normal frame, in naturals (R117). -/
theorem normalValue_eq (b : Board) (p : Fix16) (i : Nat) (hi : i < b.nPixels) (hp : p.toNat < 65536) :
    normalValue b p i = BitVec.ofNat 8
      (20 + 235 * (b.sineNorm (BitVec.ofNat 32 (p.toNat + i * 65536 / b.nPixels))).toNat / 65536) := by
  have ho := pixelOffset_toInt b i hi
  have hlt : i * 65536 / b.nPixels ≤ 65536 * 7 := by
    have := b.nPixels_le
    exact (Nat.div_le_self _ _).trans (by omega)
  have hpi : p.toInt = p.toNat := BitVec.toInt_eq_toNat_of_lt (by omega)
  generalize i * 65536 / b.nPixels = o at *
  have ha : fxAdd p (pixelOffset b i) = BitVec.ofNat 32 (p.toNat + o) := by
    apply BitVec.eq_of_toInt_eq
    rw [fxAdd_toInt, ho, hpi, clamp_of_mem (by omega) (by omega), BitVec.toInt_eq_toNat_of_lt (by simp; omega)]
    simp; omega
  have h235 : (235 : Word).toNat = 235 := rfl
  rw [normalValue, ha, fxMul_sine _ _ _ (by decide), h235, byteOf,
    show (20 : Int) = ((20 : Nat) : Int) from rfl, ← Int.natCast_add, BitVec.ofInt_natCast]

/-- The brightness of the even pixels of a calibration frame, in naturals (R121). -/
theorem calibrationValue_toNat (b : Board) (now : Word) :
    (calibrationValue b now).toNat =
      255 * (b.sineNorm (BitVec.ofNat 32 (now.toNat / 2 % 2000 * 65536 / 2000))).toNat / 65536 := by
  have ht : ((now >>> 1) % 2000).toNat = now.toNat / 2 % 2000 := by
    simp [BitVec.toNat_umod, Nat.shiftRight_eq_div_pow]
  have hdv := fxDiv_ticks ((now >>> 1) % 2000) 2000 (by decide) (by decide)
  have h2000 : (2000 : Word).toNat = 2000 := rfl
  rw [ht, h2000] at hdv
  have hq : fxDiv (fxFromUint ((now >>> 1) % 2000)) (fxFromUint 2000)
      = BitVec.ofNat 32 (now.toNat / 2 % 2000 * 65536 / 2000) := by
    apply BitVec.eq_of_toInt_eq
    have hm : now.toNat / 2 % 2000 < 2000 := Nat.mod_lt _ (by norm_num)
    generalize now.toNat / 2 % 2000 = m at *
    rw [Nat.min_eq_left (by omega : m ≤ 32767)] at hdv
    have hb : m * 65536 / 2000 < 65536 := by omega
    generalize m * 65536 / 2000 = q at *
    rw [hdv, BitVec.toInt_eq_toNat_of_lt (by simp; omega)]
    simp; omega
  have h255 : (255 : Word).toNat = 255 := rfl
  simp only [calibrationValue, hq, byteOf]
  rw [fxMul_sine _ _ _ (by decide), h255, BitVec.ofInt_natCast, BitVec.toNat_ofNat]
  have := b.sine_range (BitVec.ofNat 32 (now.toNat / 2 % 2000 * 65536 / 2000))
  omega

/-- The hue of a pixel (R117, R119). -/
theorem pixelHue_eq (b : Board) (hue : Word) (i : Nat) :
    pixelHue b hue i = BitVec.ofNat 16 (hue.toNat + (hueOffsetAt b i).toNat) := by
  apply BitVec.eq_of_toNat_eq
  simp [pixelHue]

end Sys2Proof.Machine
end

