-- ==== Sys2Proof/Laws/State.lean ====
section
/-! SUPPORT. One lemma per part of the state per named update, so that no later proof unfolds an update. -/

namespace Sys2Proof.Machine

section respond
variable (s : State) (v : Word)
@[simp] theorem State.respond_ase : (s.respond v).ase = s.ase := rfl
@[simp] theorem State.respond_hsc : (s.respond v).hsc = s.hsc := rfl
@[simp] theorem State.respond_env : (s.respond v).env = { s.env with rsp := some v } := rfl
end respond

section emit
variable (s : State) (e : OutEvent)
@[simp] theorem State.emit_ase : (s.emit e).ase = s.ase := rfl
@[simp] theorem State.emit_hsc : (s.emit e).hsc = s.hsc := rfl
@[simp] theorem State.emit_env : (s.emit e).env = { s.env with out := s.env.out ++ [e] } := rfl
@[simp] theorem State.flush_ase : s.flush.ase = s.ase := rfl
@[simp] theorem State.flush_hsc : s.flush.hsc = s.hsc := rfl
@[simp] theorem State.flush_env : s.flush.env = { s.env with out := s.env.out ++ [.flush] } := rfl
end emit

section setDecay
variable (i : Nat) (d : Byte) (s : State)
@[simp] theorem State.setDecay_hsc : (s.setDecay i d).hsc = s.hsc := rfl
@[simp] theorem State.setDecay_env : (s.setDecay i d).env = s.env := rfl
@[simp] theorem State.setDecay_ase :
    (s.setDecay i d).ase = { s.ase with decay := s.ase.decay.setIfInBounds i d } := rfl
end setDecay

section pxWrite
variable (b : Board) (i : Nat) (c : Word) (s : State)

/-- A write below `N_PIXELS` (R18). -/
theorem State.pxWrite_of_lt (h : i < b.nPixels) :
    s.pxWrite b i c = { s with
      ase := { s.ase with px := s.ase.px.setIfInBounds i c }
      env := { s.env with out := s.env.out ++ [.pxWrite i c] } } := by
  simp [State.pxWrite, h, State.emit]

/-- A write at or above `N_PIXELS` (R18). -/
theorem State.pxWrite_of_ge (h : b.nPixels ≤ i) : s.pxWrite b i c = s := by
  simp [State.pxWrite, Nat.not_lt.mpr h]

@[simp] theorem State.pxWrite_hsc : (s.pxWrite b i c).hsc = s.hsc := by unfold State.pxWrite; split <;> rfl
theorem State.pxWrite_ase :
    (s.pxWrite b i c).ase = { s.ase with px := (s.pxWrite b i c).ase.px } := by unfold State.pxWrite; split <;> rfl
theorem State.pxWrite_env :
    (s.pxWrite b i c).env = { s.env with out := (s.pxWrite b i c).env.out } := by unfold State.pxWrite; split <;> rfl
@[simp] theorem State.pxWrite_decay : (s.pxWrite b i c).ase.decay = s.ase.decay := by rw [State.pxWrite_ase]
@[simp] theorem State.pxWrite_hueAcc : (s.pxWrite b i c).ase.hueAcc = s.ase.hueAcc := by rw [State.pxWrite_ase]
@[simp] theorem State.pxWrite_draws : (s.pxWrite b i c).env.draws = s.env.draws := by rw [State.pxWrite_env]
@[simp] theorem State.pxWrite_drawn : (s.pxWrite b i c).env.drawn = s.env.drawn := by rw [State.pxWrite_env]
end pxWrite

section schedule
variable (s : State)
@[simp] theorem State.afterDraw_ase : s.afterDraw.ase = s.ase := by unfold State.afterDraw; split <;> rfl
@[simp] theorem State.afterDraw_hsc : s.afterDraw.hsc = s.hsc := by unfold State.afterDraw; split <;> rfl
theorem State.afterDraw_env :
    s.afterDraw.env = { s.env with draws := s.env.draws.drop 1, drawn := s.env.drawn + (1 - s.env.draws.length) } := by
  unfold State.afterDraw; split <;> simp_all
@[simp] theorem State.afterEvent_ase : s.afterEvent.ase = s.ase := by unfold State.afterEvent; split <;> rfl
@[simp] theorem State.afterEvent_hsc : s.afterEvent.hsc = s.hsc := by unfold State.afterEvent; split <;> rfl
theorem State.afterEvent_env :
    s.afterEvent.env = { s.env with
      events := s.env.events.drop 1, turn := s.env.turn + (1 - s.env.events.length)
      waited := s.waitedAfter s.nextEvent } := by
  unfold State.afterEvent; split <;> simp_all
@[simp] theorem State.afterEvent_cmds : s.afterEvent.env.cmds = s.env.cmds := by rw [State.afterEvent_env]
@[simp] theorem State.afterEvent_out : s.afterEvent.env.out = s.env.out := by rw [State.afterEvent_env]
@[simp] theorem State.afterEvent_rsp : s.afterEvent.env.rsp = s.env.rsp := by rw [State.afterEvent_env]
@[simp] theorem State.afterEvent_now : s.afterEvent.env.now = s.env.now := by rw [State.afterEvent_env]
theorem State.afterEvent_waited : s.afterEvent.env.waited = s.waitedAfter s.nextEvent := by rw [State.afterEvent_env]

/-- The bound is in force only where the board sets one and the interrupt is pending (R179). -/
theorem State.overdue_iff (b : Board) :
    s.overdue b = true ↔ s.hsc.intflag = true ∧ ∃ n, b.irqLatencyMax = some n ∧ n ≤ s.env.waited := by
  unfold State.overdue
  cases b.irqLatencyMax <;> simp

/-- The one move the bound displaces (R176, R179). -/
theorem State.arbitrate_cases (b : Board) (e : Event) :
    (s.arbitrate b e = e ∧ ¬ (e = .timer .ch1 ∧ s.hsc.timerEnabled .ch1 = true ∧ s.overdue b = true)) ∨
    (s.arbitrate b e = .handler ∧ e = .timer .ch1 ∧ s.hsc.timerEnabled .ch1 = true ∧ s.overdue b = true) := by
  unfold State.arbitrate
  split
  · split <;> simp_all
  · simp_all

/-- A count of channel 1 that comes next does not break the bound (R179). -/
theorem State.not_overdue_of_nextEvent (h : s.nextEvent = .timer .ch1) (hn : s.hsc.timerEnabled .ch1 = true) :
    s.overdue Config.board = false := by
  rcases s.arbitrate_cases Config.board s.scheduled with ⟨ha, hx⟩ | ⟨ha, -⟩
  · rw [State.nextEvent, ha] at h
    simpa [h, hn] using hx
  · rw [State.nextEvent, ha] at h
    cases h

/-- While no overflow is pending nothing is counted (R179; log 12). -/
theorem State.waitedAfter_of_idle (e : Event) (h : s.hsc.intflag = false) : s.waitedAfter e = 0 := by
  simp [State.waitedAfter, h]
end schedule

section chan
variable (h : Hsc) (f : Channel → Channel)
@[simp] theorem Hsc.onChan_chan_self (c : Chan) : (h.onChan c f).chan c = f (h.chan c) := by cases c <;> rfl
@[simp] theorem Hsc.onChan_ch0_ch1 : (h.onChan .ch0 f).ch1 = h.ch1 := rfl
@[simp] theorem Hsc.onChan_ch1_ch0 : (h.onChan .ch1 f).ch0 = h.ch0 := rfl
theorem Hsc.onChan_chan_other {c c' : Chan} (hc : c' ≠ c) : (h.onChan c f).chan c' = h.chan c' := by
  cases c <;> cases c' <;> first | rfl | exact absurd rfl hc
@[simp] theorem Hsc.onChan_pinitState (c : Chan) : (h.onChan c f).pinitState = h.pinitState := by cases c <;> rfl
@[simp] theorem Hsc.onChan_hardSync (c : Chan) : (h.onChan c f).hardSync = h.hardSync := by cases c <;> rfl
@[simp] theorem Hsc.onChan_intflag (c : Chan) : (h.onChan c f).intflag = h.intflag := by cases c <;> rfl
@[simp] theorem Hsc.onChan_inten (c : Chan) : (h.onChan c f).inten = h.inten := by cases c <;> rfl
@[simp] theorem Hsc.onChan_gclkEn (c : Chan) : (h.onChan c f).gclkEn = h.gclkEn := by cases c <;> rfl
@[simp] theorem Hsc.onBoth_chan (g : Chan → Channel → Channel) (c : Chan) :
    (h.onBoth g).chan c = g c (h.chan c) := by cases c <;> rfl
end chan

section arrays
variable (a : Ase) (i j : Nat)

/-- Reading a pixel after writing one of the seven. -/
theorem pxAt_set (c : Word) (hi : i < 7) :
    ({ a with px := a.px.setIfInBounds i c } : Ase).pxAt j = if i = j then c else a.pxAt j := by
  simp only [Ase.pxAt, Vector.getElem?_setIfInBounds]
  split <;> simp_all

/-- Reading a decay after writing one of the seven. -/
theorem decayAt_set (d : Byte) (hi : i < 7) :
    ({ a with decay := a.decay.setIfInBounds i d } : Ase).decayAt j = if i = j then d else a.decayAt j := by
  simp only [Ase.decayAt, Vector.getElem?_setIfInBounds]
  split <;> simp_all

end arrays

end Sys2Proof.Machine
end

