-- ==== Sys2Proof/Laws/Render.lean ====
section
/-! SUPPORT. What painting a frame and overlaying the sparkles do to the whole state, said once. -/

namespace Sys2Proof.Machine

/-- The draws and the decays that the overlay leaves alone. -/
def overlayDecay (s : State) (i : Nat) : Byte := triggeredDecay (s.env.drawAt i) (s.ase.decayAt i)

/-- Everything a loop of pixel writes has done after `n` pixels. -/
structure Painted (f : Nat → Word) (n : Nat) (s t : State) : Prop where
  ase : t.ase = { s.ase with px := t.ase.px }
  hsc : t.hsc = s.hsc
  env : t.env = { s.env with out := s.env.out ++ (List.range n).map (fun i => .pxWrite i (f i)) }
  px : ∀ i, t.ase.pxAt i = if i < n then f i else s.ase.pxAt i

theorem painted_prefix (b : Board) (f : Nat → Word) (s : State) (n : Nat) (hn : n ≤ b.nPixels) :
    Painted f n s ((List.range n).foldl (fun s i => State.pxWrite b i (f i) s) s) := by
  induction n with
  | zero => exact ⟨rfl, rfl, by simp, by simp⟩
  | succ n ih =>
    have ih := ih (by omega)
    rw [List.range_succ, List.foldl_append]
    simp only [List.foldl_cons, List.foldl_nil]
    rw [State.pxWrite_of_lt _ _ _ _ (by omega)]
    have h7 := b.nPixels_le
    refine ⟨?_, ih.hsc, ?_, fun i => ?_⟩
    · rw [ih.ase]
    · rw [ih.env]; simp [List.range_succ]
    · have := pxAt_set ((List.range n).foldl (fun s i => State.pxWrite b i (f i) s) s).ase n i (f n) (by omega)
      rw [this, ih.px]
      by_cases h : n = i
      · subst h; simp
      · simp only [h, if_false]
        have : i < n + 1 ↔ i < n := by omega
        simp [this]

/-- What painting a frame does: the pixels below `N_PIXELS`, one event each, and nothing else. -/
theorem paint_spec (b : Board) (f : Nat → Word) (s : State) : Painted f b.nPixels s (State.paint b f s) :=
  painted_prefix b f s b.nPixels le_rfl

/-- A later draw, after one draw. -/
theorem drawAt_afterDraw (s : State) (k : Nat) : s.afterDraw.env.drawAt k = s.env.drawAt (k + 1) := by
  rw [State.afterDraw_env]
  rcases h : s.env.draws with _ | ⟨r, rs⟩
  · simp [Env.drawAt, h, Nat.add_assoc, Nat.add_comm 1 k]
  · simp [Env.drawAt, h, Nat.add_sub_add_right]

/-- Everything the overlay has done after `n` pixels. -/
structure Overlaid (b : Board) (delta : Word) (n : Nat) (s t : State) : Prop where
  ase : t.ase = { s.ase with px := t.ase.px, decay := t.ase.decay }
  hsc : t.hsc = s.hsc
  env : t.env = { s.env with
    out := s.env.out ++ (List.range n).filterMap (fun i =>
      if overlayDecay s i = 0#8 then none
      else some (.pxWrite i (sparkleColour b s.ase.hueAcc i (overlayDecay s i))))
    draws := s.env.draws.drop n
    drawn := s.env.drawn + (n - s.env.draws.length) }
  draw : ∀ k, t.env.drawAt k = s.env.drawAt (n + k)
  decay : ∀ i, t.ase.decayAt i = if i < n then decayedBy delta (overlayDecay s i) else s.ase.decayAt i
  px : ∀ i, t.ase.pxAt i =
    if i < n ∧ overlayDecay s i ≠ 0#8 then sparkleColour b s.ase.hueAcc i (overlayDecay s i) else s.ase.pxAt i

@[simp] theorem decayedBy_zero (delta : Word) : decayedBy delta 0#8 = 0#8 := by
  simp [decayedBy]

/-- A pixel that sparkles. -/
theorem sparklePixel_of_ne (b : Board) (delta : Word) (i : Nat) (s : State) (hi : i < b.nPixels) {d : Byte}
    (hd : triggeredDecay (s.env.drawAt 0) (s.ase.decayAt i) = d) (h0 : d ≠ 0#8) :
    sparklePixel b delta i s = { s with
      ase := { s.ase with
        px := s.ase.px.setIfInBounds i (sparkleColour b s.ase.hueAcc i d)
        decay := s.ase.decay.setIfInBounds i (decayedBy delta d) }
      env := { s.env with
        out := s.env.out ++ [.pxWrite i (sparkleColour b s.ase.hueAcc i d)]
        draws := s.env.draws.drop 1
        drawn := s.env.drawn + (1 - s.env.draws.length) } } := by
  simp only [sparklePixel, hd, h0, if_false]
  rw [State.pxWrite_of_lt _ _ _ _ hi]
  simp only [State.setDecay, State.afterDraw_ase, State.afterDraw_hsc, State.afterDraw_env]

theorem overlaid_prefix (b : Board) (delta : Word) (s : State) (n : Nat) (hn : n ≤ b.nPixels) :
    Overlaid b delta n s ((List.range n).foldl (fun s i => sparklePixel b delta i s) s) := by
  induction n with
  | zero => exact ⟨rfl, rfl, by simp, by simp, by simp, by simp⟩
  | succ n ih =>
    have ih := ih (by omega)
    rw [List.range_succ, List.foldl_append]
    simp only [List.foldl_cons, List.foldl_nil]
    have h7 := b.nPixels_le
    generalize (List.range n).foldl (fun s i => sparklePixel b delta i s) s = t at ih
    have hue : t.ase.hueAcc = s.ase.hueAcc := by rw [ih.ase]
    have hdraw : t.env.drawAt 0 = s.env.drawAt n := by simpa using ih.draw 0
    have hdec : t.ase.decayAt n = s.ase.decayAt n := by simpa using ih.decay n
    have hpx : t.ase.pxAt n = s.ase.pxAt n := by simpa using ih.px n
    have hod : triggeredDecay (t.env.drawAt 0) (t.ase.decayAt n) = overlayDecay s n := by
      rw [hdraw, hdec, overlayDecay]
    have hdrop : t.env.draws.drop 1 = s.env.draws.drop (n + 1) := by rw [ih.env]; simp
    have hdrawn : t.env.drawn + (1 - t.env.draws.length) = s.env.drawn + (n + 1 - s.env.draws.length) := by
      rw [ih.env]; simp only [List.length_drop]; omega
    have hlt : ∀ i, i < n + 1 ↔ i < n ∨ i = n := fun i => by omega
    by_cases h0 : overlayDecay s n = 0#8
    · have hs : sparklePixel b delta n t = t.afterDraw := by
        have : triggeredDecay (t.env.drawAt 0) (t.ase.decayAt n) = 0#8 := hod.trans h0
        simp [sparklePixel, this]
      have hz : s.ase.decayAt n = 0#8 := by
        have := h0; unfold overlayDecay triggeredDecay at this; split at this <;> simp_all
      rw [hs]
      refine ⟨by rw [State.afterDraw_ase]; exact ih.ase, by rw [State.afterDraw_hsc, ih.hsc], ?_, fun k => ?_,
        fun i => ?_, fun i => ?_⟩
      · rw [State.afterDraw_env, hdrop, hdrawn, ih.env]
        simp [List.range_succ, h0]
      · rw [drawAt_afterDraw, ih.draw]; congr 1; omega
      · rw [State.afterDraw_ase, ih.decay]
        by_cases hi : i = n
        · subst hi; simp [h0, hz]
        · simp [hlt, hi]
      · rw [State.afterDraw_ase, ih.px]
        by_cases hi : i = n
        · subst hi; simp [h0]
        · simp [hlt, hi]
    · have hs := sparklePixel_of_ne b delta n t (by omega) hod h0
      have hd1 := drawAt_afterDraw t
      rw [hs]
      refine ⟨?_, ih.hsc, ?_, fun k => ?_, fun i => ?_, fun i => ?_⟩
      · rw [ih.ase]
      · rw [hdrop, hdrawn, ih.env, hue]
        simp [List.range_succ, h0]
      · have := hd1 k
        rw [State.afterDraw_env] at this
        refine Eq.trans ?_ (this.trans ?_)
        · rfl
        · rw [ih.draw]; congr 1; omega
      · have := decayAt_set t.ase n i (decayedBy delta (overlayDecay s n)) (by omega)
        refine Eq.trans this ?_
        rw [ih.decay]
        by_cases hi : n = i
        · subst hi; simp
        · simp [hlt, hi, Ne.symm hi]
      · have := pxAt_set t.ase n i (sparkleColour b t.ase.hueAcc n (overlayDecay s n)) (by omega)
        refine Eq.trans this ?_
        rw [ih.px, hue]
        by_cases hi : n = i
        · subst hi; simp [h0]
        · simp [hlt, hi, Ne.symm hi]

/-- What the overlay does: one draw a pixel, the sparkling pixels overwritten and decayed, and nothing else. -/
theorem sparkleOverlay_spec (b : Board) (delta : Word) (s : State) :
    Overlaid b delta b.nPixels s (sparkleOverlay b delta s) :=
  overlaid_prefix b delta s b.nPixels le_rfl

/-! ## Frames of the renderers -/

/-- Only pixels were written: the mirror and the output events. -/
structure PxOnly (s t : State) : Prop where
  ase : t.ase = { s.ase with px := t.ase.px }
  hsc : t.hsc = s.hsc
  env : t.env = { s.env with out := t.env.out }

theorem PxOnly.refl (s : State) : PxOnly s s := ⟨rfl, rfl, rfl⟩

theorem PxOnly.trans {s t u : State} (h : PxOnly s t) (k : PxOnly t u) : PxOnly s u :=
  ⟨by rw [k.ase, h.ase], by rw [k.hsc, h.hsc], by rw [k.env, h.env]⟩

theorem pxOnly_pxWrite (b : Board) (i : Nat) (c : Word) (s : State) : PxOnly s (s.pxWrite b i c) :=
  ⟨State.pxWrite_ase .., State.pxWrite_hsc .., State.pxWrite_env ..⟩

theorem pxOnly_paint (b : Board) (f : Nat → Word) (s : State) : PxOnly s (State.paint b f s) :=
  have h := paint_spec b f s
  ⟨h.ase, h.hsc, by rw [h.env]⟩

theorem pxOnly_solidPair (b : Board) (e : Bool) (i : Nat) (c : Word) (s : State) : PxOnly s (s.solidPair b e i c) := by
  unfold State.solidPair
  split
  · exact (pxOnly_pxWrite ..).trans (pxOnly_pxWrite ..)
  · exact .refl s

theorem pxOnly_tweakRenderer (b : Board) (s : State) : PxOnly s (tweakRenderer b s) :=
  (pxOnly_paint ..).trans <| (pxOnly_solidPair ..).trans <| (pxOnly_solidPair ..).trans <|
    (pxOnly_pxWrite ..).trans <| (pxOnly_pxWrite ..).trans (pxOnly_pxWrite ..)

/-- Pixels past `N_PIXELS` are never written (R18, R62). -/
theorem pxWrite_beyond (b : Board) (i j : Nat) (c : Word) (s : State) (hj : b.nPixels ≤ j) :
    (s.pxWrite b i c).ase.pxAt j = s.ase.pxAt j := by
  by_cases h : i < b.nPixels
  · have h7 := b.nPixels_le
    rw [State.pxWrite_of_lt _ _ _ _ h]
    exact (pxAt_set s.ase i j c (by omega)).trans (if_neg (by omega))
  · rw [State.pxWrite_of_ge _ _ _ _ (by omega)]

/-- A pixel below `N_PIXELS` after a write. -/
theorem pxWrite_px (b : Board) (i j : Nat) (c : Word) (s : State) (hj : j < b.nPixels) :
    (s.pxWrite b i c).ase.pxAt j = if i = j then c else s.ase.pxAt j := by
  by_cases h : i < b.nPixels
  · have h7 := b.nPixels_le
    rw [State.pxWrite_of_lt _ _ _ _ h]
    exact pxAt_set s.ase i j c (by omega)
  · rw [State.pxWrite_of_ge _ _ _ _ (by omega), if_neg (by omega)]

/-- What any effective step leaves alone. -/
structure AnimOnly (s t : State) : Prop where
  hsc : t.hsc = s.hsc
  mode : t.ase.mode = s.ase.mode
  tweakLfo : t.ase.tweakLfo = s.ase.tweakLfo
  tweakCastor : t.ase.tweakCastor = s.ase.tweakCastor
  tweakPollux : t.ase.tweakPollux = s.ase.tweakPollux
  env : t.env = { s.env with rsp := t.env.rsp, out := t.env.out, draws := t.env.draws, drawn := t.env.drawn }

theorem PxOnly.animOnly {s t : State} (h : PxOnly s t) : AnimOnly s t :=
  ⟨h.hsc, by rw [h.ase], by rw [h.ase], by rw [h.ase], by rw [h.ase], by rw [h.env]⟩

theorem AnimOnly.trans {s t u : State} (h : AnimOnly s t) (k : AnimOnly t u) : AnimOnly s u :=
  ⟨by rw [k.hsc, h.hsc], by rw [k.mode, h.mode], by rw [k.tweakLfo, h.tweakLfo], by rw [k.tweakCastor, h.tweakCastor],
    by rw [k.tweakPollux, h.tweakPollux], by rw [k.env, h.env]⟩

theorem animOnly_overlay (b : Board) (delta : Word) (s : State) : AnimOnly s (sparkleOverlay b delta s) :=
  have h := sparkleOverlay_spec b delta s
  ⟨h.hsc, by rw [h.ase], by rw [h.ase], by rw [h.ase], by rw [h.ase], by rw [h.env]⟩

theorem animOnly_normal (b : Board) (delta : Word) (s : State) : AnimOnly s (normalRenderer b delta s) :=
  have h := pxOnly_paint b (normalColour b (normalPhase s.ase.phase delta) (normalHueAcc s.ase.hueAcc delta))
    { s with ase := { s.ase with phase := normalPhase s.ase.phase delta, hueAcc := normalHueAcc s.ase.hueAcc delta } }
  AnimOnly.trans (t := { s with
      ase := { s.ase with phase := normalPhase s.ase.phase delta, hueAcc := normalHueAcc s.ase.hueAcc delta } })
    ⟨rfl, rfl, rfl, rfl, rfl, rfl⟩ h.animOnly

theorem animOnly_transition (b : Board) (delta : Word) (s : State) : AnimOnly s (transitionRenderer b delta s) := by
  have h := (pxOnly_paint b (fun _ => b.hsv (transHue b s.ase.mode) 255 (transValue (transPhase s.ase.phase delta)))
    { s with ase := { s.ase with phase := transPhase s.ase.phase delta } }).animOnly
  simp only [transitionRenderer]
  split <;> exact ⟨h.hsc, h.mode, h.tweakLfo, h.tweakCastor, h.tweakPollux, h.env⟩

theorem animOnly_renderFrame (b : Board) (delta : Word) (s : State) : AnimOnly s (renderFrame b delta s) := by
  have hn := (animOnly_normal b delta s).trans (animOnly_overlay b delta _)
  unfold renderFrame
  split
  · exact animOnly_transition b delta s
  · unfold modeRenderer
    split
    · exact hn
    · exact hn
    · exact hn
    · exact hn
    · exact (pxOnly_paint ..).animOnly
    · exact (pxOnly_tweakRenderer b s).animOnly

/-- Every `ANIM_STEP`, effective or not, leaves the HSC, the mode and the tweak data alone (R126). -/
theorem animOnly_animStepOn (b : Board) (s : State) : AnimOnly s (animStepOn b s) := by
  unfold animStepOn
  split
  · exact ⟨rfl, rfl, rfl, rfl, rfl, rfl⟩
  · have h := animOnly_renderFrame b s.delta { s with ase := { s.ase with lastUpdate := s.env.now } }
    exact ⟨h.hsc, h.mode, h.tweakLfo, h.tweakCastor, h.tweakPollux, by
      simp only [effectiveStep, State.respond_env, State.flush_env]; rw [h.env]⟩

/-! ## Which frame an effective step renders -/

/-- The state an effective step renders from (R112). -/
def State.based (s : State) : State := { s with ase := { s.ase with lastUpdate := s.env.now } }

theorem effectiveStep_eq (b : Board) (s : State) :
    effectiveStep b s = ((renderFrame b s.delta s.based).flush).respond 1 := rfl

/-- The limiter lets the step through (R111, R112). -/
theorem animStepOn_of_le (b : Board) (s : State) (h : b.animInterval ≤ s.env.now - s.ase.lastUpdate) :
    animStepOn b s = effectiveStep b s := by
  have : ¬ s.delta < b.animInterval := by simpa [State.delta] using h
  rw [animStepOn, if_neg this]

theorem renderFrame_of_transitioning (b : Board) (d : Word) (s : State) (h : s.ase.transitioning = true) :
    renderFrame b d s = transitionRenderer b d s := by
  rw [renderFrame, if_pos h]

theorem renderFrame_normal (b : Board) (d : Word) (s : State) (h : s.ase.transitioning = false)
    (h4 : s.ase.mode ≠ .calibration) (h5 : s.ase.mode ≠ .flagTweak) :
    renderFrame b d s = sparkleOverlay b d (normalRenderer b d s) := by
  rw [renderFrame, if_neg (by simp [h])]
  unfold modeRenderer
  split <;> first | rfl | contradiction

theorem renderFrame_calibration (b : Board) (d : Word) (s : State) (h : s.ase.transitioning = false)
    (h4 : s.ase.mode = .calibration) : renderFrame b d s = calibrationRenderer b s.env.now s := by
  rw [renderFrame, if_neg (by simp [h])]
  unfold modeRenderer
  rw [h4]

theorem renderFrame_flagTweak (b : Board) (d : Word) (s : State) (h : s.ase.transitioning = false)
    (h5 : s.ase.mode = .flagTweak) : renderFrame b d s = tweakRenderer b s := by
  rw [renderFrame, if_neg (by simp [h])]
  unfold modeRenderer
  rw [h5]

/-- No renderer writes the baseline (R112). -/
theorem renderFrame_lastUpdate (b : Board) (d : Word) (s : State) :
    (renderFrame b d s).ase.lastUpdate = s.ase.lastUpdate := by
  have hn : (sparkleOverlay b d (normalRenderer b d s)).ase.lastUpdate = s.ase.lastUpdate := by
    rw [(sparkleOverlay_spec b d _).ase]
    unfold normalRenderer
    rw [(paint_spec b _ _).ase]
  unfold renderFrame
  split
  · simp only [transitionRenderer]
    split <;> exact congrArg (fun a => a) (by rw [(paint_spec b _ _).ase])
  · unfold modeRenderer
    split
    · exact hn
    · exact hn
    · exact hn
    · exact hn
    · rw [calibrationRenderer, (pxOnly_paint b _ s).ase]
    · rw [(pxOnly_tweakRenderer b s).ase]

end Sys2Proof.Machine
end

