-- ==== Sys2Proof/Laws/Step.lean ====
section
/-! SUPPORT. Everything one step can do, said once: proofs about `step` split on these cases and unfold nothing. -/

namespace Sys2Proof.Machine

/-- The ways a step leads from `s` to `t`. -/
inductive StepCase (s t : State) : Prop where
  /-- the host runs a command -/
  | command (i : Instr) (w : CmdWord) (rest : List CmdWord) (he : s.nextEvent = .host) (hp : s.hsc.pinitState = 0)
      (hc : s.env.cmds = w :: rest) (hd : decode w = .ok i)
      (hx : exec i { s.afterEvent with env := { s.afterEvent.env with cmds := rest } } = .next t)
  /-- the host offers a reserved encoding -/
  | reserved (r : Reserved) (w : CmdWord) (rest : List CmdWord) (he : s.nextEvent = .host) (hp : s.hsc.pinitState = 0)
      (hc : s.env.cmds = w :: rest) (hd : decode w = .error r)
      (ht : t = reservedNoOp { s.afterEvent with env := { s.afterEvent.env with cmds := rest } })
  /-- the host runs a row of the bring-up -/
  | row (he : s.nextEvent = .host) (hp : s.hsc.pinitState ≠ 0) (hg : rowGuard s.hsc.pinitState s.hsc = true)
      (ht : t = rowRespond s.hsc.pinitState { s.afterEvent with
        hsc := { rowAction Config.board s.hsc.pinitState s.hsc with pinitState := rowNext s.hsc.pinitState } })
  /-- a tick of a channel -/
  | tick (c : Chan) (he : s.nextEvent = .timer c) (hn : s.hsc.timerEnabled c = true)
      (ht : t = { s.afterEvent with hsc := s.hsc.tick c })
  /-- an acknowledge event -/
  | ack (c : Chan) (k : AckKind) (he : s.nextEvent = .ack c k) (hn : s.hsc.ackEnabled c k = true)
      (ht : t = { s.afterEvent with hsc := s.hsc.acknowledge c k })
  /-- the interrupt handler -/
  | handler (he : s.nextEvent = .handler) (hn : s.hsc.handlerEnabled = true)
      (ht : t = { s.afterEvent with hsc := s.hsc.takeOverflowInterrupt Config.board })
  /-- the reset input -/
  | reset (he : s.nextEvent = .reset) (ht : t = resetMove s.afterEvent)
  /-- the tick input -/
  | now (v : Word) (he : s.nextEvent = .now v) (ht : t = nowMove v s.afterEvent)
  /-- one more command to issue -/
  | issue (w : CmdWord) (he : s.nextEvent = .issue w) (ht : t = issueMove w s.afterEvent)
  /-- an agent that is not enabled, or a host with nothing to issue: no step of the block -/
  | idle (he : s.nextEvent = .host ∨ (∃ c, s.nextEvent = .timer c) ∨ (∃ c k, s.nextEvent = .ack c k) ∨ s.nextEvent = .handler)
      (ht : t = s.afterEvent)

theorem portOpen_iff (h : Hsc) : h.portOpen = true ↔ h.pinitState = 0 := by simp [Hsc.portOpen]

/-- What a step does, and no more (R8). -/
theorem step_cases {s t : State} (h : step s = .next t) : StepCase s t := by
  unfold step move at h
  cases he : s.nextEvent with
  | host =>
    simp only [he, hostMove] at h
    by_cases hp : s.hsc.pinitState = 0
    · rw [if_pos (by rw [portOpen_iff, State.afterEvent_hsc]; exact hp)] at h
      simp only [acceptCommand, State.afterEvent_cmds] at h
      cases hc : s.env.cmds with
      | nil => rw [hc] at h; injection h with h; exact .idle (.inl he) h.symm
      | cons w rest =>
        rw [hc] at h
        simp only [runWord] at h
        cases hd : decode w with
        | ok i => rw [hd] at h; exact .command i w rest he hp hc hd h
        | error r => rw [hd] at h; injection h with h; exact .reserved r w rest he hp hc hd h.symm
    · rw [if_neg (by rw [portOpen_iff, State.afterEvent_hsc]; exact hp)] at h
      injection h with h
      simp only [microStep, State.afterEvent_hsc] at h
      split at h
      · next hg => exact .row he hp hg h.symm
      · exact .idle (.inl he) h.symm
  | timer c =>
    simp only [he, timerMove] at h
    injection h with h
    split at h
    · next hn => exact .tick c he (by simpa using hn) (by simpa using h.symm)
    · exact .idle (.inr (.inl ⟨c, he⟩)) h.symm
  | ack c k =>
    simp only [he, ackMove] at h
    injection h with h
    split at h
    · next hn => exact .ack c k he (by simpa using hn) (by simpa using h.symm)
    · exact .idle (.inr (.inr (.inl ⟨c, k, he⟩))) h.symm
  | handler =>
    simp only [he, handlerMove] at h
    injection h with h
    split at h
    · next hn => exact .handler he (by simpa using hn) (by simpa using h.symm)
    · exact .idle (.inr (.inr (.inr he))) h.symm
  | reset => simp only [he] at h; injection h with h; exact .reset he h.symm
  | now v => simp only [he] at h; injection h with h; exact .now v he h.symm
  | issue w => simp only [he] at h; injection h with h; exact .issue w he h.symm

/-- The rows of the bring-up whose guard can hold (R141). -/
theorem rowGuard_cases {n : BitVec 4} {h : Hsc} (h0 : n ≠ 0) (hg : rowGuard n h = true) :
    n = 1 ∨ n = 2 ∨ n = 3 ∨ n = 4 ∨ n = 5 ∨ n = 6 ∨ n = 7 ∨ n = 8 ∨ n = 9 ∨ n = 10 ∨ n = 11 ∨ n = 12 ∨ n = 13 := by
  have all : ∀ n : BitVec 4, n = 0 ∨ n = 14 ∨ n = 15 ∨ n = 1 ∨ n = 2 ∨ n = 3 ∨ n = 4 ∨ n = 5 ∨ n = 6 ∨ n = 7 ∨ n = 8 ∨
      n = 9 ∨ n = 10 ∨ n = 11 ∨ n = 12 ∨ n = 13 := by decide
  rcases all n with rfl | rfl | rfl | h
  · exact absurd rfl h0
  · exact absurd hg (by simp [rowGuard])
  · exact absurd hg (by simp [rowGuard])
  · exact h

/-- What a command does to the HSC. -/
theorem exec_hsc {i : Instr} {s t : State} (hx : exec i s = .next t) :
    (i = .pulseInit ∧ t.hsc = { s.hsc with pinitState := 1 }) ∨
    (∃ ch p c, i = .pulseSetPeriod ch p ∧ selectedChan ch = some c ∧ t.hsc = s.hsc.onChan c (Channel.program p)) ∨
    (∃ e, i = .pulseSetHardSync e ∧ t.hsc = { s.hsc with hardSync := e }) ∨ t.hsc = s.hsc := by
  cases i with
  | pulseInit => injection hx with hx; subst hx; exact .inl ⟨rfl, rfl⟩
  | pulseSetHardSync e => injection hx with hx; subst hx; exact .inr (.inr (.inl ⟨e, rfl, rfl⟩))
  | pulseSetPeriod ch p =>
    simp only [exec, execPulseSetPeriod] at hx
    injection hx with hx
    cases hc : selectedChan ch with
    | some c => rw [hc] at hx; subst hx; exact .inr (.inl ⟨ch, p, c, rfl, hc, rfl⟩)
    | none => rw [hc] at hx; subst hx; exact .inr (.inr (.inr rfl))
  | animSetMode m =>
    simp only [exec, execAnimSetMode] at hx
    injection hx with hx
    subst hx
    split <;> exact .inr (.inr (.inr rfl))
  | animStep => injection hx with hx; subst hx; exact .inr (.inr (.inr (animOnly_animStepOn _ _).hsc))
  | animInit => injection hx with hx; subst hx; exact .inr (.inr (.inr rfl))
  | tweakSetLfo x => injection hx with hx; subst hx; exact .inr (.inr (.inr rfl))
  | tweakSetEn x y => injection hx with hx; subst hx; exact .inr (.inr (.inr rfl))
  | rdreg n => injection hx with hx; subst hx; exact .inr (.inr (.inr rfl))

/-- Everything one step can do to the HSC, and when. -/
inductive HscCase (s t : State) : Prop where
  | same (h : t.hsc = s.hsc)
  | init (hr : s.Runs .pulseInit) (hp : s.hsc.pinitState = 0) (h : t.hsc = { s.hsc with pinitState := 1 })
  | program (ch : BitVec 4) (p : Word) (c : Chan) (hr : s.Runs (.pulseSetPeriod ch p)) (hp : s.hsc.pinitState = 0)
      (hc : selectedChan ch = some c) (h : t.hsc = s.hsc.onChan c (Channel.program p))
  | sync (e : Bool) (hr : s.Runs (.pulseSetHardSync e)) (hp : s.hsc.pinitState = 0)
      (h : t.hsc = { s.hsc with hardSync := e })
  | row (hr : s.RunsRow s.hsc.pinitState) (h : t.hsc =
      { rowAction Config.board s.hsc.pinitState s.hsc with pinitState := rowNext s.hsc.pinitState })
  | tick (c : Chan) (he : s.nextEvent = .timer c) (hn : s.hsc.timerEnabled c = true) (h : t.hsc = s.hsc.tick c)
  | ack (c : Chan) (k : AckKind) (he : s.nextEvent = .ack c k) (hn : s.hsc.ackEnabled c k = true)
      (h : t.hsc = s.hsc.acknowledge c k)
  | handler (he : s.nextEvent = .handler) (hn : s.hsc.handlerEnabled = true)
      (h : t.hsc = s.hsc.takeOverflowInterrupt Config.board)
  | reset (he : s.nextEvent = .reset) (h : t.hsc = Hsc.reset)

theorem step_hsc {s t : State} (h : step s = .next t) : HscCase s t := by
  cases step_cases h with
  | command i w rest he hp hc hd hx =>
    have hr : s.Runs i := ⟨he, (portOpen_iff _).mpr hp, w, rest, hc, hd⟩
    rcases exec_hsc hx with ⟨rfl, h⟩ | ⟨ch, p, c, rfl, h1, h⟩ | ⟨e, rfl, h⟩ | h
    · exact .init hr hp (by simpa using h)
    · exact .program ch p c hr hp h1 (by simpa using h)
    · exact .sync e hr hp (by simpa using h)
    · exact .same (by simpa using h)
  | reserved i w rest he hp hc hd ht => subst ht; exact .same (by simp [reservedNoOp])
  | row he hp hg ht => subst ht; exact .row ⟨he, rfl, hp, hg⟩ (by simp only [rowRespond]; split <;> rfl)
  | tick c he hn ht => subst ht; exact .tick c he hn rfl
  | ack c k he hn ht => subst ht; exact .ack c k he hn rfl
  | handler he hn ht => subst ht; exact .handler he hn rfl
  | reset he ht => subst ht; exact .reset he rfl
  | now v he ht => subst ht; exact .same (by simp [nowMove])
  | issue w he ht => subst ht; exact .same (by simp [issueMove])
  | idle he ht => subst ht; exact .same (by simp)

/-- What a command other than `ANIM_STEP` does to the ASE and to the output. -/
theorem exec_ase {i : Instr} {s t : State} (hx : exec i s = .next t) (hi : i ≠ .animStep) :
    t.env.out = s.env.out ∧
      ((∃ m mode, i = .animSetMode m ∧ t.ase = s.ase.enterMode mode) ∨
        (i = .animInit ∧ t.ase = { s.ase with lastUpdate := s.env.now }) ∨
        (∃ x, i = .tweakSetLfo x ∧ t.ase = { s.ase with tweakLfo := x }) ∨
        (∃ x y, i = .tweakSetEn x y ∧ t.ase = { s.ase with tweakCastor := x, tweakPollux := y }) ∨ t.ase = s.ase) := by
  cases i with
  | animStep => contradiction
  | animSetMode m =>
    simp only [exec, execAnimSetMode] at hx
    injection hx with hx
    subst hx
    split
    · exact ⟨rfl, .inl ⟨m, _, rfl, rfl⟩⟩
    · exact ⟨rfl, .inr (.inr (.inr (.inr rfl)))⟩
  | pulseSetPeriod ch p =>
    simp only [exec, execPulseSetPeriod] at hx
    injection hx with hx
    subst hx
    split <;> exact ⟨rfl, .inr (.inr (.inr (.inr rfl)))⟩
  | animInit => injection hx with hx; subst hx; exact ⟨rfl, .inr (.inl ⟨rfl, rfl⟩)⟩
  | tweakSetLfo x => injection hx with hx; subst hx; exact ⟨rfl, .inr (.inr (.inl ⟨x, rfl, rfl⟩))⟩
  | tweakSetEn x y => injection hx with hx; subst hx; exact ⟨rfl, .inr (.inr (.inr (.inl ⟨x, y, rfl, rfl⟩)))⟩
  | pulseInit => injection hx with hx; subst hx; exact ⟨rfl, .inr (.inr (.inr (.inr rfl)))⟩
  | pulseSetHardSync e => injection hx with hx; subst hx; exact ⟨rfl, .inr (.inr (.inr (.inr rfl)))⟩
  | rdreg n => injection hx with hx; subst hx; exact ⟨rfl, .inr (.inr (.inr (.inr rfl)))⟩

/-- Everything one step can do to the ASE and to the output, and when. An `ANIM_STEP` runs from a state `s'` that agrees
with `s` in all it reads. -/
inductive AseCase (s t : State) : Prop where
  | same (h : t.ase = s.ase) (ho : t.env.out = s.env.out)
  | mode (m : BitVec 3) (mode : Mode) (hr : s.Runs (.animSetMode m)) (h : t.ase = s.ase.enterMode mode)
      (ho : t.env.out = s.env.out)
  | init (hr : s.Runs .animInit) (h : t.ase = { s.ase with lastUpdate := s.env.now }) (ho : t.env.out = s.env.out)
  | lfo (x : Fix16) (hr : s.Runs (.tweakSetLfo x)) (h : t.ase = { s.ase with tweakLfo := x })
      (ho : t.env.out = s.env.out)
  | enables (x y : Bool) (hr : s.Runs (.tweakSetEn x y))
      (h : t.ase = { s.ase with tweakCastor := x, tweakPollux := y }) (ho : t.env.out = s.env.out)
  | frame (s' : State) (hr : s.Runs .animStep) (ha : s'.ase = s.ase) (hn : s'.env.now = s.env.now)
      (hd : s'.env.draws = s.env.draws) (hk : s'.env.drawn = s.env.drawn) (ho : s'.env.out = s.env.out)
      (h : t = animStepOn Config.board s')
  | reset (he : s.nextEvent = .reset) (h : t.ase = Ase.reset) (ho : t.env.out = s.env.out)

theorem step_ase {s t : State} (h : step s = .next t) : AseCase s t := by
  cases step_cases h with
  | command i w rest he hp hc hd hx =>
    have hr : s.Runs i := ⟨he, (portOpen_iff _).mpr hp, w, rest, hc, hd⟩
    by_cases hi : i = .animStep
    · subst hi
      injection hx with hx
      exact .frame { s.afterEvent with env := { s.afterEvent.env with cmds := rest } } hr (by simp) (by simp)
        (by simp [State.afterEvent_env]) (by simp [State.afterEvent_env]) (by simp) hx.symm
    · obtain ⟨ho, h⟩ := exec_ase hx hi
      have ho : t.env.out = s.env.out := by simpa using ho
      rcases h with ⟨m, mode, rfl, h⟩ | ⟨rfl, h⟩ | ⟨x, rfl, h⟩ | ⟨x, y, rfl, h⟩ | h
      · exact .mode m mode hr (by simpa using h) ho
      · exact .init hr (by simpa using h) ho
      · exact .lfo x hr (by simpa using h) ho
      · exact .enables x y hr (by simpa using h) ho
      · exact .same (by simpa using h) ho
  | reserved i w rest he hp hc hd ht => subst ht; exact .same (by simp [reservedNoOp]) (by simp [reservedNoOp])
  | row he hp hg ht => subst ht; simp only [rowRespond]; split <;> exact .same (by simp) (by simp)
  | tick c he hn ht => subst ht; exact .same (by simp) (by simp)
  | ack c k he hn ht => subst ht; exact .same (by simp) (by simp)
  | handler he hn ht => subst ht; exact .same (by simp) (by simp)
  | reset he ht => subst ht; exact .reset he rfl (by simp [resetMove])
  | now v he ht => subst ht; exact .same (by simp [nowMove]) (by simp [nowMove])
  | issue w he ht => subst ht; exact .same (by simp [issueMove]) (by simp [issueMove])
  | idle he ht => subst ht; exact .same (by simp) (by simp)

end Sys2Proof.Machine
end

