-- ==== Sys2Proof/Tests/Slice0.lean ====
section
/-! SUPPORT. Tests, their expected values from 95_test_vectors and the encodings of 30_encoding, and a witness for every
statement that has hypotheses. -/

namespace Sys2Proof.Tests

open Sys2Proof.Machine

/-! ## The test configuration TC0 with its stubs (95_test_vectors, section 1) -/

/-- `sine_stub`, a triangle wave. -/
def sineStub (x : Fix16) : Fix16 :=
  let f := (x.setWidth 16).toNat
  if f < 0x4000 then BitVec.ofNat 32 (0x8000 + 2 * f)
  else if f < 0xC000 then BitVec.ofNat 32 (0x18000 - 2 * f)
  else BitVec.ofNat 32 (2 * f - 0x18000)

theorem sineStub_range (x : Fix16) : (sineStub x).toNat ≤ 0x10000 := by
  have := (x.setWidth 16).isLt
  simp only [sineStub]
  generalize (x.setWidth 16).toNat = f at this
  split
  · simp only [BitVec.toNat_ofNat]; omega
  · split <;> simp only [BitVec.toNat_ofNat] <;> omega

/-- `hsv_stub`, a bit packer. -/
def hsvStub (h : Half) (s v : Byte) : Word := 0#8 ++ h.extractLsb' 8 8 ++ s ++ v

/-- TC0. -/
def TC0 : Board where
  animInterval := 16
  animInterval_pos := by decide
  hueOffset := #v[0, 9000, 19000, 27000, 38000, 46000, 56000]
  transHueNormal := 43690
  transHueLfoPwm := 10922
  transHueLfoFm := 21845
  transHueHardSync := 54613
  castorColor := 0x00FF0000
  castorColor_ne := by decide
  polluxColor := 0x000000FF
  polluxColor_ne := by decide
  perPlaceholder := 100
  perPlaceholder_ne := by decide
  sineNorm := sineStub
  sine_range := sineStub_range
  sine_period := by intro x y h; simp only [sineStub, h]
  hsv := hsvStub

/-- A reset state with the tick at `t` and the draws given. -/
def atTick (t : Word) (draws : List Word) : State :=
  { State.reset with env := { Env.reset with now := t, draws := draws } }

/-- The ASE changed. -/
def withAse (f : Ase → Ase) (s : State) : State := { s with ase := f s.ase }

/-- A reset state with the HSC given. -/
def withHsc (h : Hsc) : State := { State.reset with hsc := h }

/-- The state a step reaches, the start where it reaches none. -/
def after (i : Instr) (s : State) : State :=
  match exec i s with
  | .next t => t
  | .fault _ => s
  | .refused _ => s

/-- A channel that runs. -/
def running (count per perb cc ccb : Word) : Channel :=
  { Channel.reset with
    clkEn := true, enable := true, wave := true, pmux := true, count := count, per := per, perb := perb, cc := cc,
    ccb := ccb }

/-- The HSC after a bring-up, with the channels given. -/
def runningHsc (ch0 ch1 : Channel) : Hsc := { Hsc.reset with gclkEn := true, inten := true, ch0 := ch0, ch1 := ch1 }

/-- A state whose next move is `e`. -/
def moving (e : Event) (s : State) : State := { s with env := { s.env with events := [e] } }

/-! ## Encoding: words written out from R80 and R85, op, sel, then imm -/

theorem test_decode_ANIM_INIT : decode (0b0001#4 ++ 0b0000#4 ++ 0x00000000#32) = .ok .animInit := by decide
theorem test_decode_ANIM_SET_MODE : decode (0b0010#4 ++ 0b0000#4 ++ 0x00000005#32) = .ok (.animSetMode 5) := by decide
theorem test_decode_ANIM_STEP : decode (0b0011#4 ++ 0b0000#4 ++ 0x00000000#32) = .ok .animStep := by decide
theorem test_decode_TWEAK_SET_LFO :
    decode (0b0100#4 ++ 0b0000#4 ++ 0xFFFF0000#32) = .ok (.tweakSetLfo 0xFFFF0000) := by decide
theorem test_decode_TWEAK_SET_EN :
    decode (0b0101#4 ++ 0b0000#4 ++ 0x00000002#32) = .ok (.tweakSetEn false true) := by decide
theorem test_decode_PULSE_INIT : decode (0b1000#4 ++ 0b0000#4 ++ 0x00000000#32) = .ok .pulseInit := by decide
theorem test_decode_PULSE_SET_PERIOD :
    decode (0b1001#4 ++ 0b0001#4 ++ 0x000003E8#32) = .ok (.pulseSetPeriod 1 1000) := by decide
theorem test_decode_PULSE_SET_PERIOD_last :
    decode (0b1001#4 ++ 0b1111#4 ++ 0xFFFFFFFF#32) = .ok (.pulseSetPeriod 15 0xFFFFFFFF) := by decide
theorem test_decode_PULSE_SET_HARD_SYNC :
    decode (0b1010#4 ++ 0b0000#4 ++ 0x00000001#32) = .ok (.pulseSetHardSync true) := by decide
theorem test_decode_RDREG : decode (0b1111#4 ++ 0b0000#4 ++ 0x00000033#32) = .ok (.rdreg 0x33) := by decide
theorem test_decode_mode_6 : decode 0x2000000006 = .ok (.animSetMode 6) := by decide

/-! ## Ill-formed words, one for each check (VE11 to VE21) -/

theorem test_illFormed_ops : ∀ op ∈ [0x0#4, 0x6#4, 0x7#4, 0xB#4, 0xC#4, 0xD#4, 0xE#4],
    wellFormedWord (op ++ 0#4 ++ 0#32) = false ∧ decode (op ++ 0#4 ++ 0#32) = .error (.opcode op) := by decide
theorem test_illFormed_ANIM_INIT_imm :
    wellFormedWord 0x1000000001 = false ∧ decode 0x1000000001 = .error (.mustBeZero 1) := by decide
theorem test_illFormed_ANIM_SET_MODE_imm :
    wellFormedWord 0x2000000008 = false ∧ decode 0x2000000008 = .error (.mustBeZero 2) := by decide
theorem test_illFormed_ANIM_STEP_sel :
    wellFormedWord 0x3100000000 = false ∧ decode 0x3100000000 = .error (.mustBeZero 3) := by decide
theorem test_illFormed_TWEAK_SET_LFO_sel :
    wellFormedWord 0x4100000000 = false ∧ decode 0x4100000000 = .error (.mustBeZero 4) := by decide
theorem test_illFormed_TWEAK_SET_EN_imm :
    wellFormedWord 0x5000000004 = false ∧ decode 0x5000000004 = .error (.mustBeZero 5) := by decide
theorem test_illFormed_PULSE_INIT_imm :
    wellFormedWord 0x8000000001 = false ∧ decode 0x8000000001 = .error (.mustBeZero 8) := by decide
theorem test_illFormed_PULSE_SET_HARD_SYNC_imm :
    wellFormedWord 0xA000000002 = false ∧ decode 0xA000000002 = .error (.mustBeZero 10) := by decide
theorem test_illFormed_RDREG_imm :
    wellFormedWord 0xF000000100 = false ∧ decode 0xF000000100 = .error (.mustBeZero 15) := by decide
theorem test_illFormed_RDREG_sel :
    wellFormedWord 0xF100000000 = false ∧ decode 0xF100000000 = .error (.mustBeZero 15) := by decide
theorem test_wellFormed_PULSE_SET_PERIOD : wellFormedWord 0x9FFFFFFFFF = true := by decide

/-- The first instruction after reset is the one offered (R82, R86). -/
theorem test_fetch : step (State.reset.withFetchWord 40 0xA000000001) =
    exec (.pulseSetHardSync true) { State.reset with env := { Env.reset with cmds := [], events := [] } } := rfl

/-! ## Fixed-point primitives (VF1 to VF23) -/

theorem test_fxAdd_saturates : fxAdd 0x7FFF0000 0x00010000 = 0x7FFFFFFF := by decide
theorem test_fxSub_saturates : fxSub 0x80000000 1 = 0x80000000 ∧ fxSub 0 0x00010000 = 0xFFFF0000 := by decide
theorem test_fxMul_floors : fxMul 0xFFFFFFFF 1 = 0xFFFFFFFF ∧ fxMul 0xFFFF8000 0x00018000 = 0xFFFF4000 := by decide
theorem test_fxMul_saturates :
    fxMul 0x7FFF0000 0x7FFF0000 = 0x7FFFFFFF ∧ fxMul 0x80000000 0x00020000 = 0x80000000 := by decide
theorem test_fxDiv_truncates :
    fxDiv 0x00010000 0x00030000 = 0x00005555 ∧ fxDiv 0xFFFF0000 0x00030000 = 0xFFFFAAAB := by decide
theorem test_fxDiv_by_zero :
    fxDiv 5 0 = 0x7FFFFFFF ∧ fxDiv 0xFFFFFFFB 0 = 0x80000000 ∧ fxDiv 0 0 = 0x7FFFFFFF := by decide
theorem test_fxFromUint : [7, 32767, 32768, 0xFFFFFFFF].map fxFromUint
    = [0x00070000, 0x7FFF0000, 0x7FFF0000, 0x7FFF0000] := by decide
theorem test_fxToInt : [0xFFFF8000, 0x00018000, 0xFFFF0000, 0x0000FFFF, 0xFFFFFFFF].map fxToInt
    = [-1, 1, -1, 0, -1] := by decide
theorem test_pixelOffset_seven : (List.range 7).map (pixelOffset TC0)
    = [0, 0x2492, 0x4924, 0x6DB6, 0x9249, 0xB6DB, 0xDB6D] := by decide

/-! ## Animation control (VC1, VC2, VC4, VC6, VC7) -/

theorem test_ANIM_INIT : (after .animInit (atTick 1000 [])).ase.lastUpdate = 1000 := by decide
theorem test_ANIM_SET_MODE :
    let t := after (.animSetMode 3) (withAse (fun a => { a with phase := 0x8123 }) State.reset)
    t.ase.mode = .hardSync ∧ t.ase.phase = 0 ∧ t.ase.transitioning = true := by decide
theorem test_ANIM_SET_MODE_reserved :
    (after (.animSetMode 7) (withAse (fun a => { a with mode := .lfoFm, phase := 0x4000 }) State.reset)).ase
      = (withAse (fun a => { a with mode := .lfoFm, phase := 0x4000 }) State.reset).ase := by decide
theorem test_TWEAK_SET_LFO : (after (.tweakSetLfo 0x12345678) State.reset).ase.tweakLfo = 0x12345678 := by decide
theorem test_TWEAK_SET_EN :
    (after (.tweakSetEn true false)
      (withAse (fun a => { a with tweakCastor := true, tweakPollux := true }) State.reset)).ase.tweakEn = 0b01 := by
  decide

/-! ## ANIM_STEP -/

/-- VL5: one tick too early across the wrap. -/
theorem test_ANIM_STEP_early :
    animStepOn TC0 (withAse (fun a => { a with lastUpdate := 0xFFFFFFF8 }) (atTick 7 []))
      = (withAse (fun a => { a with lastUpdate := 0xFFFFFFF8 }) (atTick 7 [])).respond 0 := by decide

/-- VN1: the first normal frame. -/
theorem test_ANIM_STEP_normal :
    let t := animStepOn TC0 (withAse (fun a => { a with lastUpdate := 1000 }) (atTick 1016 [1, 1, 1, 1, 1, 1, 1]))
    t.ase.phase = 0x01DC ∧ t.ase.hueAcc = 80 ∧ t.env.rsp = some 1 ∧ t.env.draws = [] ∧
      t.ase.px = #v[0x00FF8C, 0x23FFD0, 0x4AFFEA, 0x69FFA7, 0x94FF64, 0xB4FF21, 0xDBFF49] := by decide

/-- Brightness against `PHASE` (95_test_vectors, 3.5). -/
theorem test_transValue : [0x0, 0x0418, 0x4000, 0x8000, 0xC000, 0xFFFF, 0x10000, 0x10001, 0x20C45A, 0x7FFFFFFF].map
    transValue = [255, 250, 191, 127, 63, 0, 0, 0, 0, 0] := by decide

/-- VT3: the last frame of a transition. -/
theorem test_transition_ends :
    let t := transitionRenderer TC0 16
      (withAse (fun a => { a with mode := .hardSync, transitioning := true, phase := 0x10000 }) State.reset)
    t.ase.phase = 0x10418 ∧ t.ase.transitioning = false ∧ t.ase.px = Vector.replicate 7 0x00D5FF00 := by decide

/-- VS7. -/
theorem test_triggers : [400, 399, 401, 0xFFFFFFFF, 0x190, 4000, 0].map triggers
    = [true, false, false, false, true, true, true] := by decide

/-- VS4, VS5: the sparkle of pixel 0 is drawn with the decay as it is, then decremented. -/
theorem test_sparklePixel :
    let t := sparklePixel TC0 16 0 (withAse (fun a => { a with decay := a.decay.set 0 3 }) (atTick 0 [1]))
    let u := sparklePixel TC0 16 0 (withAse (fun a => { a with decay := a.decay.set 0 100 }) (atTick 0 [0]))
    t.ase.decayAt 0 = 0 ∧ t.ase.pxAt 0 = 0x0000FC7F ∧ u.ase.decayAt 0 = 251 ∧ u.ase.pxAt 0 = 0x0000007F := by decide

/-- VK1 to VK7. -/
theorem test_calibrationValue : [0, 1000, 2000, 3000, 4001, 0xFFFFFFFE, 0x80000000].map (calibrationValue TC0)
    = [127, 255, 127, 0, 127, 37, 82] := by decide

/-- VK3. -/
theorem test_calibrationColour : (List.range 3).map (calibrationColour TC0 127) = [0xC3FF7F, 0x27FF80, 0xC3FF7F] := by
  decide

/-- 95_test_vectors, 3.9. -/
theorem test_tweakValue :
    [0xFFFF0000, 0xFFFF8000, 0, 0xFFFFFFFF, 0x8000, 0xFFFF, 0x10000, 0x20000, 0xFFFE0000, 0x7FFFFFFF, 0x80000000].map
      tweakValue = [0, 63, 127, 127, 191, 254, 255, 126, 128, 255, 0] := by decide

/-- VW4: the writes past `N_PIXELS` = 4 are dropped. -/
theorem test_tweakRenderer :
    let b := { TC0 with nPixels := 4, nPixels_pos := by decide, nPixels_le := by decide }
    let t := tweakRenderer b (withAse (fun a => { a with mode := .flagTweak, tweakPollux := true }) State.reset)
    t.ase.px = #v[0, 0, 0xFF, 0xFF, 0, 0, 0] ∧ t.env.out.length = 6 := by decide

/-! ## Pulse commands, RDREG, agents -/

/-- VP11: `PULSE_INIT` accepted. -/
theorem test_PULSE_INIT : (after .pulseInit State.reset).hsc.pinitState = 1 ∧ (after .pulseInit State.reset).env.rsp = none := by
  decide
/-- VP10: the prescalers in place. -/
theorem test_row_prescaler :
    let b := { TC0 with cfgDiv := fun c => match c with | .ch0 => 3 | .ch1 => 5 }
    let h := rowAction b 5 (runningHsc (running 0 100 100 0 0) (running 0 100 100 0 0))
    h.ch0.ctrl = 0x0F ∧ h.ch1.ctrl = 0x17 := by decide
/-- VP5. -/
theorem test_PULSE_SET_PERIOD :
    let t := after (.pulseSetPeriod 0 0xFFFFFFFF) State.reset
    t.hsc.ch0.perb = 0xFFFFFFFF ∧ t.hsc.ch0.ccb = 0x7FFFFFFF ∧ t.hsc.ch1 = Channel.reset := by decide
/-- VP3. -/
theorem test_PULSE_SET_PERIOD_channel_2 : (after (.pulseSetPeriod 2 77) State.reset).hsc = Hsc.reset := by decide
/-- VP8. -/
theorem test_PULSE_SET_HARD_SYNC :
    (after (.pulseSetHardSync true) State.reset).hsc = { Hsc.reset with hardSync := true } := by decide
/-- VR5. -/
theorem test_RDREG_pinstat :
    (after (.rdreg 0x3F) (withHsc (runningHsc (running 0 9 9 4 4) (running 1 5 5 2 2)))).env.rsp = some 3 := by decide
/-- VR3, VR7. -/
theorem test_RDREG_decay :
    (after (.rdreg 0x0A) (withAse (fun a => { a with decay := a.decay.set 2 247 }) State.reset)).env.rsp = some 247 ∧
      (after (.rdreg 0x0F) (withAse (fun a => { a with decay := a.decay.set 2 247 }) State.reset)).env.rsp = some 0 := by
  decide
/-- VH2. -/
theorem test_overflow :
    let h := (runningHsc (running 100 100 9 0 4) Channel.reset).tick .ch0
    h.ch0.count = 0 ∧ h.ch0.per = 9 ∧ h.ch0.cc = 4 ∧ h.intflag = true ∧ h.ch0.pwmOut = true := by decide
/-- VH11. -/
theorem test_overflow_top :
    ((runningHsc Channel.reset (running 0xFFFFFFFF 0xFFFFFFFF 5 0 2)).tick .ch1).ch1.count = 0 := by decide
/-- VH5. -/
theorem test_handler :
    let h := Hsc.takeOverflowInterrupt TC0
      { runningHsc (running 0 9 9 4 4) (running 8 100 5 0 2) with intflag := true, hardSync := true }
    h.intflag = false ∧ h.ch1.count = 0 ∧ h.ch1.per = 100 ∧ h.ch1.cc = 0 := by decide
/-- VH10. -/
theorem test_handler_retrigger_updates :
    let h := Hsc.takeOverflowInterrupt { TC0 with retriggerUpdates := true }
      { runningHsc (running 0 9 9 4 4) (running 7 100 5 0 2) with intflag := true, hardSync := true }
    h.ch1.count = 0 ∧ h.ch1.per = 5 ∧ h.ch1.cc = 2 ∧ h.ch1.pwmOut = true := by decide

/-! ## Witnesses: for each statement with hypotheses, states and operands that meet them all, one for each clause -/

/-- At the last tick from baseline 0 every block lets a step through, whatever its `ANIM_INTERVAL`. -/
theorem last_tick_is_late (b : Board) : b.animInterval ≤ (0xFFFFFFFF : Word) - 0 := by
  rw [BitVec.le_def]
  have := b.animInterval.isLt
  simp; omega

/-- A tick that has not moved is early on every block. -/
theorem same_tick_is_early (b : Board) (t : Word) : (t - t).toNat < b.animInterval.toNat := by
  have := b.animInterval_pos
  simp; omega

/-- The state at the last tick, with the ASE given. -/
def lateWith (f : Ase → Ase) : State := withAse f (atTick 0xFFFFFFFF [0])

theorem witness_EncodeOfDecode : decode 0x2000000007 = .ok (.animSetMode 7) := by decide

theorem witness_DecodeAgreesWithOpcodeMap :
    wellFormedWord 0xF0000000FF = true ∧ decode 0xF0000000FF = .ok (.rdreg 0xFF) ∧
      (opcodeRows.filter (·.selects 0xF0000000FF)).length = 1 := by decide

/-- One word for each way to be reserved, at the edge of its range. -/
theorem witness_ReservedWordsOnlyRespondZero :
    (decode 0x8100000000 = .error (.mustBeZero 8) ∧ decode 0x1000000001 = .error (.mustBeZero 1) ∧
      decode 0x2000000008 = .error (.mustBeZero 2) ∧ decode 0x4100000000 = .error (.mustBeZero 4) ∧
      decode 0x5000000004 = .error (.mustBeZero 5) ∧ decode 0xA000000002 = .error (.mustBeZero 10) ∧
      decode 0xF000000100 = .error (.mustBeZero 15)) ∧
    (let s := State.reset.offering 0x6000000000
     s.nextEvent = .host ∧ s.hsc.pinitState = 0 ∧ s.env.cmds = 0x6000000000 :: [] ∧
      decode 0x6000000000 = .error (.opcode 6)) := ⟨by decide, rfl, rfl, rfl, by decide⟩

theorem witness_StepRunsDecodedCommand :
    let s := State.reset.offering 0x1000000000
    s.hsc.pinitState = 0 ∧ s.env.cmds = 0x1000000000 :: [] ∧ decode 0x1000000000 = .ok .animInit ∧
      s.nextEvent = .host ∧ s.env.events = .host :: [] := ⟨rfl, rfl, by decide, rfl, rfl⟩

/-- A bring-up whose last row comes next. -/
def preparedHsc : Hsc :=
  let ch (c : Chan) : Channel :=
    { running 0 Config.board.perPlaceholder Config.board.perPlaceholder 0 0 with presc := Config.board.cfgDiv c }
  { Hsc.reset with gclkEn := true, pinitState := 13, ch0 := ch .ch0, ch1 := ch .ch1 }

/-- A state in the last row of a bring-up, the hue at its greatest value, whose next move is `e`. -/
def preparedState (e : Event) : State := moving e (withAse (fun a => { a with hueAcc := 65535 }) (withHsc preparedHsc))

theorem prepared_bringUp (e : Event) : (preparedState e).hsc.BringUp Config.board where
  generator _ := rfl
  masked _ := rfl
  chan c := by cases c <;> constructor <;> intros <;> first | rfl | exact ⟨rfl, rfl⟩

theorem prepared_sound (e : Event) : (preparedState e).Sound where
  ase :=
    { hue := by change (65535 : Word).toNat ≤ 65535; decide
      phase := by change 0 ≤ (0 : Fix16).toInt; decide
      decay := fun i _ => by
        change Ase.reset.decayAt i = 0
        by_cases h : i < 7 <;> simp [Ase.decayAt, Ase.reset, h]
      px := fun i _ => by
        change Ase.reset.pxAt i = 0
        by_cases h : i < 7 <;> simp [Ase.pxAt, Ase.reset, h] }
  hsc :=
    { pinit := by change (13 : BitVec 4).toNat ≤ 13; decide
      count := fun c _ => by cases c <;> (change (0 : Word) ≤ _; simp [BitVec.le_def])
      settling := fun c h => by
        have h2 : 13 ≤ enableRow c := h.2
        cases c <;> exact absurd h2 (by decide) }

theorem witness_PortClosedDuringBringUp :
    (preparedState .host).hsc.pinitState ≠ 0 ∧ (∃ t, step (preparedState .host) = .next t) ∧
      (preparedState .host).nextEvent = .host ∧ (preparedState .host).nextEvent ≠ .reset :=
  ⟨by decide, ⟨_, rfl⟩, rfl, by decide⟩

theorem witness_AnimSetModeStartsTransition : (0 : BitVec 3).toNat ≤ 5 ∧ (5 : BitVec 3).toNat ≤ 5 := by decide

theorem witness_AnimSetModeIgnoresReservedCodes : ∃ m : BitVec 3, (m = 6 ∨ m = 7) := ⟨7, .inr rfl⟩

theorem witness_LimiterRejectsEarlySteps :
    (State.reset.env.now - State.reset.ase.lastUpdate).toNat < Config.board.animInterval.toNat ∧
      Config.board.animInterval.toNat ≤ ((lateWith id).env.now - (lateWith id).ase.lastUpdate).toNat :=
  ⟨same_tick_is_early _ 0, last_tick_is_late _⟩

/-- The late step, also for `LargeDeltaSaturates`, in each kind of frame. -/
theorem witness_EffectiveStepRendersOneFrame :
    Config.board.animInterval ≤ (lateWith id).env.now - (lateWith id).ase.lastUpdate := last_tick_is_late _

theorem witness_TransitionFrame :
    let s := lateWith (fun a => { a with transitioning := true })
    Config.board.animInterval ≤ s.env.now - s.ase.lastUpdate ∧ s.ase.transitioning = true ∧ 0 ≤ s.ase.phase.toInt :=
  ⟨last_tick_is_late _, rfl, by decide⟩

theorem witness_NormalFrameAdvances :
    let s := lateWith (fun a => { a with phase := 0x7FFFFFFF })
    Config.board.animInterval ≤ s.env.now - s.ase.lastUpdate ∧ s.ase.transitioning = false ∧
      s.ase.mode ≠ .calibration ∧ s.ase.mode ≠ .flagTweak ∧ 0 ≤ s.ase.phase.toInt :=
  ⟨last_tick_is_late _, rfl, by decide, by decide, by decide⟩

/-- Pixel 0 sparkles when its draw is 0 and does not when it is 1, and no block has a pixel 7. -/
theorem witness_SparkleOverlayFrame :
    (let s := lateWith id
     Config.board.animInterval ≤ s.env.now - s.ase.lastUpdate ∧ s.ase.transitioning = false ∧
      s.ase.mode ≠ .calibration ∧ s.ase.mode ≠ .flagTweak ∧ (s.env.drawAt 0).toNat % 400 = 0) ∧
    ((atTick 0xFFFFFFFF [1]).env.drawAt 0).toNat % 400 ≠ 0 ∧ (atTick 0xFFFFFFFF [1]).ase.decayAt 0 = 0 ∧
      0 < Config.board.nPixels ∧ Config.board.nPixels ≤ 7 :=
  ⟨⟨last_tick_is_late _, rfl, by decide, by decide, by decide⟩, by decide, by decide, Config.board.nPixels_pos,
    Config.board.nPixels_le⟩

theorem witness_FourModesRenderAlike :
    (lateWith id).ase.transitioning = false ∧ (lateWith id).ase.mode ≠ .calibration ∧ (lateWith id).ase.mode ≠ .flagTweak ∧
      Mode.hardSync ≠ .calibration ∧ Mode.hardSync ≠ .flagTweak ∧ ∃ t, exec .animStep (lateWith id) = .next t :=
  ⟨rfl, by decide, by decide, by decide, by decide, ⟨_, rfl⟩⟩

theorem witness_CalibrationFrame :
    let s := lateWith (fun a => { a with mode := .calibration })
    Config.board.animInterval ≤ s.env.now - s.ase.lastUpdate ∧ s.ase.transitioning = false ∧ s.ase.mode = .calibration ∧
      0 < Config.board.nPixels := ⟨last_tick_is_late _, rfl, rfl, Config.board.nPixels_pos⟩

theorem witness_CalibrationPairsSumTo255 :
    let s := lateWith (fun a => { a with mode := .calibration })
    TC0.animInterval ≤ s.env.now - s.ase.lastUpdate ∧ s.ase.transitioning = false ∧ s.ase.mode = .calibration ∧
      0 < TC0.nPixels ∧ 1 < TC0.nPixels := by decide

theorem witness_TweakFrame :
    let s := lateWith (fun a => { a with mode := .flagTweak })
    Config.board.animInterval ≤ s.env.now - s.ase.lastUpdate ∧ s.ase.transitioning = false ∧ s.ase.mode = .flagTweak ∧
      0 < Config.board.nPixels := ⟨last_tick_is_late _, rfl, rfl, Config.board.nPixels_pos⟩

theorem witness_TweakPixelsDark :
    let s := lateWith (fun a => { a with mode := .flagTweak })
    TC0.animInterval ≤ s.env.now - s.ase.lastUpdate ∧ s.ase.transitioning = false ∧ s.ase.mode = .flagTweak ∧
      s.ase.tweakCastor = false ∧ s.ase.tweakPollux = false ∧ 3 < TC0.nPixels ∧ 4 < TC0.nPixels ∧ 6 < TC0.nPixels := by
  decide

theorem witness_LargeDeltaSaturates :
    32767 ≤ (32767 : Word).toNat ∧ 32767 ≤ (0xFFFFFFFF : Word).toNat ∧
      (let s := lateWith (fun a => { a with transitioning := true })
       Config.board.animInterval ≤ s.env.now - s.ase.lastUpdate ∧ s.ase.transitioning = true ∧ 0 ≤ s.ase.phase.toInt ∧
        1001 ≤ (s.env.now - s.ase.lastUpdate).toNat) :=
  ⟨by decide, by decide, last_tick_is_late _, rfl, by decide, by decide⟩

theorem witness_TransitionFadesOut :
    0 ≤ (0 : Fix16).toInt ∧ (0 : Fix16).toInt ≤ (0x10000 : Fix16).toInt ∧ 65536 ≤ (0x10000 : Fix16).toInt := by decide

/-- `n` ticks, each one before the last, so that every `delta` is the greatest there is. -/
def countdown : Word → Nat → List Word
  | _, 0 => []
  | t, n + 1 => (t - 1) :: countdown (t - 1) n

theorem countdown_effective (t : Word) (n : Nat) : (effectiveDeltas t (countdown t n)).length = n := by
  induction n generalizing t with
  | zero => rfl
  | succ n ih =>
    have hlate : ¬ (t - 1) - t < Config.board.animInterval := by
      have e : t - 1 - t = (0xFFFFFFFF : Word) - 0 := by bv_omega
      rw [e]
      simpa using last_tick_is_late Config.board
    simp only [countdown, effectiveDeltas, if_neg hlate, List.length_cons, ih]

theorem witness_TransitionEndsWithin1009Steps :
    0 ≤ (lateWith (fun a => { a with transitioning := true })).ase.phase.toInt ∧
      1009 ≤ (effectiveDeltas (lateWith (fun a => { a with transitioning := true })).ase.lastUpdate
        (countdown 0 1009)).length := ⟨by decide, (countdown_effective 0 1009).ge⟩

theorem witness_HueIsFiveTimesTheDeltas :
    let s := lateWith (fun a => { a with hueAcc := 65535 })
    s.ase.transitioning = false ∧ s.ase.mode ≠ .calibration ∧ s.ase.mode ≠ .flagTweak ∧ s.ase.hueAcc.toNat ≤ 65535 := by
  decide

/-- The bit packer is never black at a brightness other than 0. -/
theorem hsvStub_nonblack : TC0.HsvNonblack := by
  intro h s v hv h0
  apply hv
  have e : hsvStub h s v = (0#8 ++ h.extractLsb' 8 8 ++ s) ++ v := rfl
  have h0 : ((0#8 ++ h.extractLsb' 8 8 ++ s) ++ v).toNat = 0 := by rw [← e]; exact congrArg BitVec.toNat h0
  have := v.isLt
  rw [BitVec.toNat_append, ← Nat.shiftLeft_add_eq_or_of_lt v.isLt] at h0
  apply BitVec.eq_of_toNat_eq
  change v.toNat = 0
  omega

theorem witness_NormalBrightnessHasFloor :
    TC0.HsvNonblack ∧ TC0.animInterval ≤ (lateWith id).env.now - (lateWith id).ase.lastUpdate ∧
      (lateWith id).ase.transitioning = false ∧ (lateWith id).ase.mode ≠ .calibration ∧
      (lateWith id).ase.mode ≠ .flagTweak ∧ 6 < TC0.nPixels :=
  ⟨hsvStub_nonblack, by decide, rfl, by decide, by decide, by decide⟩

theorem witness_DecayReachesZero : 4 ≤ (4 : Word).toNat ∧ 255 ≤ 255 := by decide

theorem witness_DecayRisesOnlyByTrigger : ∃ t, step (moving (.timer .ch0) State.reset) = .next t := ⟨_, rfl⟩

/-- A state in row `n` of a bring-up, at the host's move. -/
def inRow (n : BitVec 4) : State := moving .host (withHsc { Hsc.reset with pinitState := n })

theorem witness_BringUpRowsClocksAndReset : ∀ n ∈ [1, 2, 3], (inRow n).nextEvent = .host ∧ (inRow n).hsc.pinitState = n := by
  decide

theorem witness_BringUpRowsConfigure :
    ∀ n ∈ [5, 6, 7, 8], (inRow n).nextEvent = .host ∧ (inRow n).hsc.pinitState = n := by decide

theorem witness_BringUpRowsEnable : ∀ n ∈ [9, 11, 13], (inRow n).nextEvent = .host ∧ (inRow n).hsc.pinitState = n := by
  decide

/-- Each waiting row, with its bits clear; the bit set is met by the HSC after the row before it. -/
theorem witness_BringUpRowsWait :
    (∀ n ∈ [4, 10, 12], (inRow n).nextEvent = .host ∧ (inRow n).hsc.pinitState = n ∧
      (inRow n).hsc.ch0.swrstBusy = false ∧ (inRow n).hsc.ch0.enableBusy = false ∧ (inRow n).hsc.ch1.enableBusy = false) ∧
    (Hsc.reset.resetUnits.ch0.swrstBusy || Hsc.reset.resetUnits.ch1.swrstBusy) = true ∧
      (rowEnable .ch0 Hsc.reset).ch0.enableBusy = true ∧ (rowEnable .ch1 Hsc.reset).ch1.enableBusy = true := by decide

theorem witness_StepKeepsBringUp :
    (preparedState (.timer .ch0)).hsc.BringUp Config.board ∧ ∃ t, step (preparedState (.timer .ch0)) = .next t :=
  ⟨prepared_bringUp _, ⟨_, rfl⟩⟩

/-- TC0 with a bound of 2 counts on the handler's latency. -/
def boundedTC0 : Board := { TC0 with irqLatencyMax := some 2 }

/-- Channel 1 runs, the interrupt is pending and enabled, and `n` counts have been taken since the overflow. -/
def waiting (n : Nat) : State :=
  let s := withHsc { runningHsc (running 0 9 9 4 4) (running 0 9 9 4 4) with intflag := true }
  { s with env := { s.env with waited := n } }

/-- The same with the interrupt masked, as it is in a bring-up before row 13 (R141, R174). -/
def masked (n : Nat) : State := { waiting n with hsc := { (waiting n).hsc with inten := false } }

theorem witness_HandlerLatencyIsBounded :
    (boundedTC0.irqLatencyMax = some 2 ∧ (waiting 2).hsc.timerEnabled .ch1 = true ∧ (waiting 2).hsc.intflag = true ∧
      2 ≤ (waiting 2).env.waited) ∧
    (TC0.irqLatencyMax = none ∧ (waiting 1).env.waited < 2 ∧ (Event.timer .ch0 ≠ .timer .ch1)) ∧
    (masked 2).hsc.intflag = true ∧ (masked 2).hsc.inten = false ∧ State.reset.hsc.intflag = false ∧
      State.reset.Prompt Config.board ∧ ∃ t, step (State.reset.offering 0x1000000000) = .next t :=
  ⟨by decide, by decide, rfl, rfl, rfl,
    fun (h : State.reset.hsc.intflag = true) => absurd h (by decide), ⟨_, rfl⟩⟩

/-- A bound of 2 counts: after the second one the handler goes first, before it the schedule is free (R179). -/
theorem test_latency_bound :
    (waiting 2).arbitrate boundedTC0 (.timer .ch1) = .handler ∧
      (waiting 1).arbitrate boundedTC0 (.timer .ch1) = .timer .ch1 ∧
      (waiting 2).arbitrate boundedTC0 (.timer .ch0) = .timer .ch0 ∧
      (waiting 2).arbitrate TC0 (.timer .ch1) = .timer .ch1 := by decide

/-- Counts of channel 1 are counted from the overflow, masked or not, and no third one comes while it is masked (R179). -/
theorem test_latency_counted :
    (waiting 1).waitedAfter (.timer .ch1) = 2 ∧ (waiting 1).waitedAfter (.timer .ch0) = 1 ∧
      (masked 1).waitedAfter (.timer .ch1) = 2 ∧ (masked 2).arbitrate boundedTC0 (.timer .ch1) = .handler ∧
      handlerMove boundedTC0 (masked 2) = masked 2 ∧
      (withHsc (runningHsc Channel.reset (running 0 9 9 4 4))).waitedAfter (.timer .ch1) = 0 := by decide

theorem witness_BringUpNetEffect :
    (preparedState .host).hsc.BringUp Config.board ∧ (preparedState .host).hsc.Sound ∧
      (preparedState .host).hsc.pinitState = 13 ∧ (preparedState .host).nextEvent = .host :=
  ⟨prepared_bringUp _, (prepared_sound _).hsc, rfl, rfl⟩

theorem witness_SetPeriodWritesBuffers : selectedChan 0 = some .ch0 ∧ selectedChan 1 = some .ch1 := by decide

theorem witness_SetPeriodIgnoresOtherChannels : 2 ≤ (2 : BitVec 4).toNat ∧ 2 ≤ (15 : BitVec 4).toNat := by decide

/-- The ends of every range of numbers in the register map, what they read and what they do not. -/
theorem witness_RdregReadsByNumber :
    registerOf 0x08 = some (.decay 0) ∧ registerOf 0x0E = some (.decay 6) ∧ registerOf 0x10 = some (.px 0) ∧
      registerOf 0x16 = some (.px 6) ∧ registerOf 0x30 = some (.ctrl .ch0) ∧ registerOf 0x37 = some (.pinstat .ch0) ∧
      registerOf 0x38 = some (.ctrl .ch1) ∧ registerOf 0x3F = some (.pinstat .ch1) ∧
      ∀ n ∈ [0x07, 0x0F, 0x17, 0x1F, 0x25, 0x2F, 0x40, 0xFF], registerOf n = none := by decide

/-- A state that runs, channel 0 at `count`, whose next move is `e`. -/
def runningAt (count : Word) (e : Event) : State :=
  moving e (withHsc { runningHsc (running count 9 5 4 2) (running 3 9 5 4 2) with intflag := true, hardSync := true })

theorem witness_DisabledMovesChangeNothing :
    ((moving (.timer .ch1) State.reset).nextEvent = .timer .ch1 ∧ (State.reset.hsc.chan .ch1).enable = false) ∧
    ((moving .handler State.reset).nextEvent = .handler ∧ State.reset.hsc.intflag = false) ∧
    ((moving (.ack .ch0 .swrst) State.reset).nextEvent = .ack .ch0 .swrst ∧ State.reset.hsc.gclkEn = false) ∧
    ((moving .host State.reset).nextEvent = .host ∧ State.reset.hsc.pinitState = 0 ∧ State.reset.env.cmds = []) ∧
    (runningAt 9 .reset).nextEvent = .reset := by decide

theorem witness_TimerTickCounts :
    let s := runningAt 8 (.timer .ch0)
    let u := runningAt 9 (.timer .ch0)
    (s.nextEvent = .timer .ch0 ∧ (s.hsc.chan .ch0).enable = true ∧ (s.hsc.chan .ch0).clkEn = true ∧ s.hsc.gclkEn = true ∧
      (s.hsc.chan .ch0).count.toNat < (s.hsc.chan .ch0).per.toNat) ∧
    u.nextEvent = .timer .ch0 ∧ (u.hsc.chan .ch0).per.toNat ≤ (u.hsc.chan .ch0).count.toNat := by decide

theorem witness_OverflowLatchesBuffers :
    let s := runningAt 9 (.timer .ch0)
    let u := moving (.timer .ch1) (withHsc (runningHsc Channel.reset (running 9 9 5 4 2)))
    (s.nextEvent = .timer .ch0 ∧ s.hsc.timerEnabled .ch0 = true ∧ s.hsc.ch0.per.toNat ≤ s.hsc.ch0.count.toNat) ∧
      (u.nextEvent = .timer .ch1 ∧ u.hsc.timerEnabled .ch1 = true ∧ u.hsc.ch1.per.toNat ≤ u.hsc.ch1.count.toNat) := by
  decide

theorem witness_HandlerServesOverflow :
    let s := runningAt 0 .handler
    s.nextEvent = .handler ∧ s.hsc.intflag = true ∧ s.hsc.inten = true ∧ s.hsc.hardSync = true := by decide

theorem witness_HardSyncRestartsChannelOne :
    let s : State := { runningAt 9 .host with env := { Env.reset with events := [.timer .ch0, .handler] } }
    s.env.events = .timer .ch0 :: .handler :: [] ∧ s.hsc.timerEnabled .ch0 = true ∧ s.hsc.ch0.per ≤ s.hsc.ch0.count ∧
      s.hsc.inten = true ∧ s.hsc.hardSync = true := by decide

theorem witness_PendingFlagIsKept :
    (runningAt 0 .handler).hsc.intflag = true ∧ ∃ t, step (runningAt 0 .handler) = .next t ∧ t.hsc.intflag = false :=
  ⟨rfl, ⟨_, rfl, rfl⟩⟩

theorem witness_AcknowledgeClearsBusyBit :
    let h := { rowEnable .ch0 Hsc.reset.resetUnits with gclkEn := true }
    let s := moving (.ack .ch0 .swrst) (withHsc { h with ch0 := { h.ch0 with clkEn := true } })
    s.nextEvent = .ack .ch0 .swrst ∧ (s.hsc.chan .ch0).clkEn = true ∧ s.hsc.gclkEn = true ∧
      (s.hsc.chan .ch0).busy .swrst = true ∧ (s.hsc.chan .ch0).busy .enable = true := by decide

theorem witness_HalfDutyOverOnePeriod :
    let h := runningHsc (running 0 9 9 4 4) (running 0 0 0 0 0)
    h.timerEnabled .ch0 = true ∧ (h.chan .ch0).wave = true ∧ (h.chan .ch0).pmux = true ∧ (h.chan .ch0).count = 0 ∧
      (h.chan .ch0).cc = (h.chan .ch0).per >>> 1 ∧ h.timerEnabled .ch1 = true ∧
      (h.chan .ch1).cc = (h.chan .ch1).per >>> 1 := by decide

theorem witness_ResetMoveClearsEveryRegister : (runningAt 9 .reset).nextEvent = .reset := rfl

theorem witness_ResetMeetsInvariants :
    (runningHsc (running 0 9 9 4 4) (running 0 5 5 2 2)).pinitState = 0 ∧
      State.reset.hsc.intflag = false := ⟨rfl, rfl⟩

theorem witness_StepKeepsSound :
    (preparedState (.timer .ch1)).Sound ∧ ∃ t, step (preparedState (.timer .ch1)) = .next t :=
  ⟨prepared_sound _, ⟨_, rfl⟩⟩

theorem witness_BuffersStayEqualUntilProgrammed :
    let s := moving (.timer .ch0) (withHsc (runningHsc (running 9 9 9 4 4) Channel.reset))
    (s.hsc.chan .ch0).perb = (s.hsc.chan .ch0).per ∧ (s.hsc.chan .ch0).ccb = (s.hsc.chan .ch0).cc ∧
      ∃ t, step s = .next t := ⟨rfl, rfl, ⟨_, rfl⟩⟩

theorem witness_LiveRegistersChangeOnlyAtLatch :
    ∃ t, step (runningAt 9 (.timer .ch0)) = .next t ∧ (t.hsc.chan .ch0).per ≠ ((runningAt 9 (.timer .ch0)).hsc.chan .ch0).per :=
  ⟨_, rfl, by decide⟩

theorem witness_AseRegisterWriters :
    (State.reset.offering 0x1000000000).nextEvent ≠ .reset ∧ ∃ t, step (State.reset.offering 0x1000000000) = .next t :=
  ⟨by decide, ⟨_, rfl⟩⟩

theorem witness_HscRegisterWriters :
    (State.reset.offering 0x8000000000).nextEvent ≠ .reset ∧ ∃ t, step (State.reset.offering 0x8000000000) = .next t :=
  ⟨by decide, ⟨_, rfl⟩⟩

theorem witness_SubBlocksShareNothing :
    (∃ t, exec .animStep State.reset = .next t) ∧ (∃ t, exec .pulseInit State.reset = .next t) ∧
      (∃ t, step (runningAt 9 .handler) = .next t) ∧ (runningAt 9 .handler).nextEvent = .handler ∧
      (∃ t, step (inRow 1) = .next t) ∧ (inRow 1).nextEvent = .host ∧ (inRow 1).hsc.pinitState ≠ 0 :=
  ⟨⟨_, rfl⟩, ⟨_, rfl⟩, ⟨_, rfl⟩, rfl, ⟨_, rfl⟩, rfl, by decide⟩

end Sys2Proof.Tests
end

section
/-! The host's move at the open port: the word it offers runs (R8, R82, R86). -/

namespace Sys2Proof.Machine

theorem runWord_of_decode_ok {w : CmdWord} {i : Instr} (hd : decode w = .ok i) (s : State) :
    runWord w s = exec i s := by
  simp only [runWord, hd]

theorem hostMove_of_portOpen {s : State} {w : CmdWord} {rest : List CmdWord} (hp : s.hsc.portOpen = true)
    (hc : s.env.cmds = w :: rest) :
    hostMove s = runWord w { s with env := { s.env with cmds := rest } } := by
  simp only [hostMove, if_pos hp, acceptCommand, hc]

theorem step_of_host {s : State} (he : s.nextEvent = .host) : step s = hostMove s.afterEvent := by
  simp only [step, move, he]

/-- Whatever the word offered is, reserved encodings included, it is what the step runs (R86). -/
theorem step_of_word_offered {s : State} {w : CmdWord} {rest : List CmdWord} (he : s.nextEvent = .host)
    (hp : s.hsc.pinitState = 0) (hc : s.env.cmds = w :: rest) :
    step s = runWord w { s.afterEvent with env := { s.afterEvent.env with cmds := rest } } := by
  have hopen : s.afterEvent.hsc.portOpen = true := by rw [portOpen_iff, State.afterEvent_hsc, hp]
  have hoffer : s.afterEvent.env.cmds = w :: rest := by rw [State.afterEvent_cmds, hc]
  rw [step_of_host he, hostMove_of_portOpen hopen hoffer]

/-- The latency bound displaces no move of the host (R179). -/
theorem State.nextEvent_of_host_listed {s : State} {es : List Event} (hl : s.env.events = .host :: es) :
    s.nextEvent = .host := by
  simp only [State.nextEvent, State.scheduled, hl, State.arbitrate]

/-- A move of the host is no count of channel 1 (R179; log 12). -/
theorem State.waitedAfter_host (s : State) :
    s.waitedAfter .host = if s.hsc.intflag then s.env.waited else 0 := by
  simp [State.waitedAfter]

theorem State.afterEvent_of_host_listed {s : State} {es : List Event} (hl : s.env.events = .host :: es) :
    s.afterEvent =
      { s with env := { s.env with events := es, waited := if s.hsc.intflag then s.env.waited else 0 } } := by
  simp only [State.afterEvent, hl, State.nextEvent_of_host_listed hl, State.waitedAfter_host]

/-- Settles O6: the move is the host's in both clauses, and where the schedule lists it the state without it is known in
full. -/
theorem stepRunsDecodedCommand : Obligations.StepRunsDecodedCommand := by
  intro s w rest i hp hc hd
  have hrun (he : s.nextEvent = .host) :
      step s = exec i { s.afterEvent with env := { s.afterEvent.env with cmds := rest } } := by
    rw [step_of_word_offered he hp hc, runWord_of_decode_ok hd]
  refine ⟨hrun, fun es hl => ?_⟩
  rw [hrun (State.nextEvent_of_host_listed hl), State.afterEvent_of_host_listed hl]

end Sys2Proof.Machine
end

section
/-! The registers after reset: all zero (R51; decision D15). -/

namespace Sys2Proof.Machine

@[simp] theorem Ase.reset_decayAt (i : Nat) : Ase.reset.decayAt i = 0 := by
  by_cases h : i < 7 <;> simp [Ase.decayAt, Ase.reset, h]

@[simp] theorem Ase.reset_pxAt (i : Nat) : Ase.reset.pxAt i = 0 := by
  by_cases h : i < 7 <;> simp [Ase.pxAt, Ase.reset, h]

@[simp] theorem Hsc.reset_chan (c : Chan) : Hsc.reset.chan c = Channel.reset := by cases c <;> rfl

@[simp] theorem Channel.reset_pwmOut : Channel.reset.pwmOut = false := rfl

/-- The ports play no part, so this holds after the reset input as well as at the start (R201). -/
theorem State.readReg_of_reset {s : State} (ha : s.ase = Ase.reset) (hh : s.hsc = Hsc.reset) (r : RegName) :
    s.readReg r = 0 := by
  cases r with
  | decay i => simp [State.readReg, ha]
  | px i => simp [State.readReg, ha]
  | mode | lastUpdate | phase | hueAcc | transitioning | tweakLfo | tweakEn => simp only [State.readReg, ha]; rfl
  | hardSync | pinitState | intflag | inten | clkctrl => simp only [State.readReg, hh]; rfl
  | ctrl c | syncbusy c | per c | perb c | cc c | ccb c | count c | pinstat c =>
    simp only [State.readReg, hh, Hsc.reset_chan]; rfl

/-- An unimplemented number reads 0 in any state (R161). -/
theorem State.readNumber_eq_zero {s : State} (h : ∀ r, s.readReg r = 0) (n : BitVec 8) : s.readNumber n = 0 := by
  unfold State.readNumber
  split
  · exact h _
  · rfl

/-- Settles O52: every named register reads 0, so every number does, and each channel is the reset channel. -/
theorem resetReadsZero : Obligations.ResetReadsZero :=
  ⟨State.readNumber_eq_zero (State.readReg_of_reset rfl rfl),
    fun c => (congrArg Channel.pwmOut (Hsc.reset_chan c)).trans Channel.reset_pwmOut⟩

end Sys2Proof.Machine
end

section
/-! The reserved words, by their fields, and the no-op that executes them (R87; decision D4). -/

namespace Sys2Proof.Laws

/-- What accepts the command `i` exactly under `P` is reserved exactly when `P` fails. -/
theorem reserved_iff_not_of_eq_ok_iff {x : Except Reserved Instr} {i : Instr} {P : Prop}
    (h : ∀ j, x = .ok j ↔ i = j ∧ P) : (∃ r, x = .error r) ↔ ¬P := by
  cases x with
  | error r => exact iff_of_true ⟨r, rfl⟩ fun hP => nomatch (h i).mpr ⟨rfl, hP⟩
  | ok j => exact iff_of_false (fun hr => nomatch hr) (not_not_intro ((h j).mp rfl).2)

/-- Format Z is reserved exactly when a bit below `op` is set (R83). -/
theorem formatZ_reserved_iff {w : CmdWord} {i : Instr} :
    (∃ r, formatZ w i = .error r) ↔ selField w ≠ 0 ∨ immField w ≠ 0 := by
  rw [reserved_iff_not_of_eq_ok_iff fun _ => formatZ_eq_ok, not_and_or]

/-- Format I is reserved exactly when `sel` is not zero or the operand is wider than its field (R83). -/
theorem formatI_reserved_iff {w : CmdWord} {n : Nat} {i : Instr} :
    (∃ r, formatI w n i = .error r) ↔ selField w ≠ 0 ∨ 2 ^ n ≤ (immField w).toNat := by
  rw [reserved_iff_not_of_eq_ok_iff fun _ => formatI_eq_ok, not_and_or, Nat.not_lt]

/-- An operand of 32 bits is never wider than its field, so `sel` alone is left to be zero (R83, R84). -/
theorem formatI_full_reserved_iff {w : CmdWord} {i : Instr} :
    (∃ r, formatI w 32 i = .error r) ↔ selField w ≠ 0 := by
  rw [formatI_reserved_iff, or_iff_left (Nat.not_le.mpr (immField w).isLt)]

/-- The reserved words: an undefined `op`, or a must-be-zero bit set under a defined one (R87). -/
theorem decode_reserved_iff (w : CmdWord) :
    (∃ r, decode w = .error r) ↔
      opField w ∈ [0x0#4, 0x6#4, 0x7#4, 0xB#4, 0xC#4, 0xD#4, 0xE#4] ∨
      opField w ∈ [0x1#4, 0x3#4, 0x8#4] ∧ (selField w ≠ 0 ∨ immField w ≠ 0) ∨
      opField w = 0x2#4 ∧ (selField w ≠ 0 ∨ 8 ≤ (immField w).toNat) ∨
      opField w = 0x4#4 ∧ selField w ≠ 0 ∨
      opField w = 0x5#4 ∧ (selField w ≠ 0 ∨ 4 ≤ (immField w).toNat) ∨
      opField w = 0xA#4 ∧ (selField w ≠ 0 ∨ 2 ≤ (immField w).toNat) ∨
      opField w = 0xF#4 ∧ (selField w ≠ 0 ∨ 256 ≤ (immField w).toNat) := by
  have hc := decode_cases w
  generalize decode w = x at hc ⊢
  cases hc with
  | animInit h | animStep h | pulseInit h => rw [formatZ_reserved_iff]; simp [h]
  | animSetMode h | tweakSetEn h | pulseSetHardSync h | rdreg h => rw [formatI_reserved_iff]; simp [h]
  | tweakSetLfo h => rw [formatI_full_reserved_iff]; simp [h]
  | pulseSetPeriod h => simp [h]
  | reserved h => exact iff_of_true ⟨_, rfl⟩ (.inl h)

end Sys2Proof.Laws

namespace Sys2Proof.Machine

theorem runWord_of_decode_error {w : CmdWord} {r : Reserved} (hd : decode w = .error r) (s : State) :
    runWord w s = .next (reservedNoOp s) := by
  simp only [runWord, hd]

/-- Settles O5: the decoder's cases say which words are reserved, and the step runs the no-op of the word offered. -/
theorem reservedWordsOnlyRespondZero : Obligations.ReservedWordsOnlyRespondZero := by
  refine fun w => ⟨Laws.decode_reserved_iff w, fun s rest r he hp hc hd => ?_⟩
  rw [step_of_word_offered he hp hc, runWord_of_decode_error hd]
  rfl

end Sys2Proof.Machine
end

section
/-! The animation control commands: the word of each, and the whole state each leaves (R100 to R104). -/

namespace Sys2Proof.Laws

theorem wordOf_toNat (op sel : BitVec 4) (imm : Word) :
    (wordOf op sel imm).toNat = op.toNat * 2 ^ 36 + sel.toNat * 2 ^ 32 + imm.toNat := by
  simp only [wordOf, BitVec.toNat_append]
  rw [← Nat.shiftLeft_add_eq_or_of_lt sel.isLt, ← Nat.shiftLeft_add_eq_or_of_lt imm.isLt]
  simp only [Nat.shiftLeft_eq]
  omega

/-- Where `sel` is zero the operand is added to the word of the bare opcode (R80). -/
theorem wordOf_sel_zero (op : BitVec 4) (imm : Word) :
    wordOf op 0 imm = wordOf op 0 0 + imm.setWidth 40 := by
  apply BitVec.eq_of_toNat_eq
  have hop := op.isLt
  have himm := imm.isLt
  simp only [BitVec.toNat_add, BitVec.toNat_setWidth, wordOf_toNat, BitVec.ofNat_eq_ofNat, BitVec.toNat_ofNat]
  omega

theorem encode_animSetMode (m : BitVec 3) : encode (.animSetMode m) = 0x2000000000 + m.setWidth 40 := by
  have hm : (m.setWidth 32 : Word).setWidth 40 = m.setWidth 40 := BitVec.setWidth_setWidth (by decide)
  calc encode (.animSetMode m)
    _ = wordOf 0x2 0 0 + (m.setWidth 32 : Word).setWidth 40 := wordOf_sel_zero _ _
    _ = 0x2000000000 + m.setWidth 40 := congrArg _ hm

theorem encode_tweakSetLfo (x : Fix16) : encode (.tweakSetLfo x) = 0x4000000000 + x.setWidth 40 :=
  wordOf_sel_zero 0x4 x

/-- Two flags side by side, as in the operand of `TWEAK_SET_EN` and in `TWEAK_EN` (R29, R104). -/
theorem toNat_flagPair (hi lo : Bool) : (BitVec.ofBool hi ++ BitVec.ofBool lo).toNat = 2 * hi.toNat + lo.toNat := by
  cases hi <;> cases lo <;> rfl

/-- A 32-bit word holds a pair of flags without loss. -/
theorem toNat_flagPair_word (hi lo : Bool) :
    ((BitVec.ofBool hi ++ BitVec.ofBool lo).setWidth 32).toNat = 2 * hi.toNat + lo.toNat := by
  rw [BitVec.toNat_setWidth_of_le (by decide), toNat_flagPair]

theorem encode_tweakSetEn_toNat (castor pollux : Bool) :
    (encode (.tweakSetEn castor pollux)).toNat = 0x5000000000 + 2 * pollux.toNat + castor.toNat := by
  simp only [encode, wordOf_toNat, toNat_flagPair_word, BitVec.ofNat_eq_ofNat, BitVec.toNat_ofNat]
  omega

end Sys2Proof.Laws

namespace Sys2Proof.Machine

/-! ## The closed set of modes (R89) -/

theorem Mode.code_le_five (mode : Mode) : mode.code.toNat ≤ 5 := by cases mode <;> decide

theorem Mode.exists_ofCode_of_le_five (m : BitVec 3) (h : m.toNat ≤ 5) :
    ∃ mode : Mode, mode.code = m ∧ Mode.ofCode m = some mode := by
  have hm : m = 0 ∨ m = 1 ∨ m = 2 ∨ m = 3 ∨ m = 4 ∨ m = 5 := by revert m; decide
  rcases hm with rfl | rfl | rfl | rfl | rfl | rfl
  · exact ⟨.normal, rfl, rfl⟩
  · exact ⟨.lfoPwm, rfl, rfl⟩
  · exact ⟨.lfoFm, rfl, rfl⟩
  · exact ⟨.hardSync, rfl, rfl⟩
  · exact ⟨.calibration, rfl, rfl⟩
  · exact ⟨.flagTweak, rfl, rfl⟩

theorem Mode.ofCode_reserved {m : BitVec 3} (h : m = 6 ∨ m = 7) : Mode.ofCode m = none := by
  rcases h with rfl | rfl <;> rfl

/-! ## What each command does -/

theorem exec_animSetMode_of_ofCode {m : BitVec 3} {mode : Mode} (h : Mode.ofCode m = some mode) (s : State) :
    exec (.animSetMode m) s = .next (State.respond { s with ase := s.ase.enterMode mode } 0) := by
  simp only [exec, execAnimSetMode, h]

theorem exec_animSetMode_of_none {m : BitVec 3} (h : Mode.ofCode m = none) (s : State) :
    exec (.animSetMode m) s = .next (s.respond 0) := by
  simp only [exec, execAnimSetMode, h]

theorem readReg_tweakEn_toNat (s : State) :
    (s.readReg .tweakEn).toNat = 2 * s.ase.tweakPollux.toNat + s.ase.tweakCastor.toNat :=
  Laws.toNat_flagPair_word _ _

/-- `MODE` shows the code of the mode held, and no mode has a code above 5 (R23). -/
theorem readReg_mode_le_five (s : State) : (s.readReg .mode).toNat ≤ 5 :=
  calc (s.readReg .mode).toNat
    _ = s.ase.mode.code.toNat := BitVec.toNat_setWidth_of_le (by decide)
    _ ≤ 5 := s.ase.mode.code_le_five

/-- Settles O9: the word is a fixed one, and the state named is the one `ANIM_INIT` is defined to leave. -/
theorem animInitRecordsTick : Obligations.AnimInitRecordsTick :=
  ⟨by decide, fun _ => rfl⟩

/-- Settles O10: a code up to 5 names a mode, which is then entered. -/
theorem animSetModeStartsTransition : Obligations.AnimSetModeStartsTransition := by
  refine fun m => ⟨Laws.encode_animSetMode m, fun hm => ?_⟩
  obtain ⟨mode, hcode, hof⟩ := Mode.exists_ofCode_of_le_five m hm
  exact ⟨mode, hcode, exec_animSetMode_of_ofCode hof⟩

/-- Settles O11: codes 6 and 7 name no mode. -/
theorem animSetModeIgnoresReservedCodes : Obligations.AnimSetModeIgnoresReservedCodes :=
  ⟨fun _ s hm => exec_animSetMode_of_none (Mode.ofCode_reserved hm) s, readReg_mode_le_five⟩

/-- Settles O12: the operand fills `imm`, and the state named is the one `TWEAK_SET_LFO` is defined to leave. -/
theorem tweakSetLfoStoresWord : Obligations.TweakSetLfoStoresWord :=
  fun x => ⟨Laws.encode_tweakSetLfo x, fun _ => rfl⟩

/-- Settles O13: the operand and `TWEAK_EN` hold the two flags in the same layout. -/
theorem tweakSetEnStoresFlags : Obligations.TweakSetEnStoresFlags :=
  fun castor pollux => ⟨Laws.encode_tweakSetEn_toNat castor pollux,
    fun _ => ⟨_, rfl, rfl, readReg_tweakEn_toNat _⟩⟩

end Sys2Proof.Machine
end

section
/-! `ANIM_STEP` at the port: what the limiter turns away, and what an effective step does whichever frame it renders
(R111, R112, R114). -/

namespace Sys2Proof.Machine

/-- The limiter turns the step away (R111). -/
theorem exec_animStep_of_lt {s : State} (h : s.env.now - s.ase.lastUpdate < Config.board.animInterval) :
    exec .animStep s = .next (s.respond 0) :=
  congrArg Host.Outcome.next (if_pos h)

/-- The limiter lets the step through: one frame, one flush, response 1 (R112, R114). -/
theorem exec_animStep_of_le {s : State} (h : Config.board.animInterval ≤ s.env.now - s.ase.lastUpdate) :
    exec .animStep s = .next ((renderFrame Config.board s.delta s.based).flush.respond 1) := by
  simp only [exec, execAnimStep, animStepOn_of_le _ _ h, effectiveStep_eq]

/-- Settles O14: the interval is compared as a natural number, and no renderer writes the baseline that is put in place
before it runs. -/
theorem limiterRejectsEarlySteps : Obligations.LimiterRejectsEarlySteps :=
  fun _ => ⟨fun h => exec_animStep_of_lt h,
    fun h => ⟨_, exec_animStep_of_le h, renderFrame_lastUpdate _ _ _, rfl⟩⟩

/-- The same, where it is known which frame the dispatch renders (R113). -/
theorem exec_animStep_of_renders {s u : State} (h : Config.board.animInterval ≤ s.env.now - s.ase.lastUpdate)
    (hu : renderFrame Config.board s.delta s.based = u) : exec .animStep s = .next (u.flush.respond 1) :=
  hu ▸ exec_animStep_of_le h

/-! ## How many pixel writes a frame holds -/

/-- From `s` to `t` the output has grown by at least `lo` and at most `hi` pixel writes, all below `N_PIXELS`, and by
nothing else. -/
def Writes (b : Board) (lo hi : Nat) (s t : State) : Prop :=
  ∃ frame, t.env.out = s.env.out ++ frame ∧ (∀ e ∈ frame, ∃ i c, e = .pxWrite i c ∧ i < b.nPixels) ∧
    lo ≤ frame.length ∧ frame.length ≤ hi

theorem Writes.refl (b : Board) (s : State) : Writes b 0 0 s s := ⟨[], by simp⟩

theorem Writes.trans {b : Board} {lo hi lo' hi' : Nat} {s t u : State} (h : Writes b lo hi s t)
    (k : Writes b lo' hi' t u) : Writes b (lo + lo') (hi + hi') s u := by
  obtain ⟨f, hout, hf, hlo, hhi⟩ := h
  obtain ⟨g, kout, hg, klo, khi⟩ := k
  refine ⟨f ++ g, by rw [kout, hout, List.append_assoc], fun e he => ?_, ?_, ?_⟩
  · exact (List.mem_append.mp he).elim (hf e) (hg e)
  · rw [List.length_append]; omega
  · rw [List.length_append]; omega

theorem Writes.mono {b : Board} {lo hi lo' hi' : Nat} {s t : State} (h : Writes b lo hi s t) (hlo : lo' ≤ lo)
    (hhi : hi ≤ hi') : Writes b lo' hi' s t :=
  have ⟨f, hout, hf, h1, h2⟩ := h
  ⟨f, hout, hf, hlo.trans h1, h2.trans hhi⟩

/-- A write is dropped at or above `N_PIXELS` (R18). -/
theorem writes_pxWrite (b : Board) (i : Nat) (c : Word) (s : State) : Writes b 0 1 s (s.pxWrite b i c) := by
  rcases lt_or_ge i b.nPixels with hi | hi
  · rw [State.pxWrite_of_lt _ _ _ _ hi]
    exact ⟨[.pxWrite i c], rfl, by simpa using hi, by simp⟩
  · rw [State.pxWrite_of_ge _ _ _ _ hi]
    exact (Writes.refl b s).mono le_rfl zero_le_one

theorem writes_solidPair (b : Board) (e : Bool) (i : Nat) (c : Word) (s : State) :
    Writes b 0 2 s (s.solidPair b e i c) := by
  cases e
  · exact (Writes.refl b s).mono le_rfl zero_le_two
  · exact (writes_pxWrite ..).trans (writes_pxWrite ..)

theorem writes_paint (b : Board) (f : Nat → Word) (s : State) :
    Writes b b.nPixels b.nPixels s (State.paint b f s) := by
  refine ⟨_, congrArg Env.out (paint_spec b f s).env, fun e he => ?_, by simp, by simp⟩
  obtain ⟨i, hi, rfl⟩ := List.mem_map.mp he
  exact ⟨i, f i, rfl, List.mem_range.mp hi⟩

theorem writes_overlay (b : Board) (delta : Word) (s : State) :
    Writes b 0 b.nPixels s (sparkleOverlay b delta s) := by
  refine ⟨_, congrArg Env.out (sparkleOverlay_spec b delta s).env, fun e he => ?_, Nat.zero_le _, ?_⟩
  · obtain ⟨i, hi, hsome⟩ := List.mem_filterMap.mp he
    split at hsome
    · cases hsome
    · exact ⟨i, _, (Option.some.inj hsome).symm, List.mem_range.mp hi⟩
  · exact (List.length_filterMap_le ..).trans List.length_range.le

theorem writes_transition (b : Board) (delta : Word) (s : State) :
    Writes b b.nPixels b.nPixels s (transitionRenderer b delta s) := by
  have h := writes_paint b (fun _ => b.hsv (transHue b s.ase.mode) 255 (transValue (transPhase s.ase.phase delta)))
    { s with ase := { s.ase with phase := transPhase s.ase.phase delta } }
  simp only [transitionRenderer]
  split <;> exact h

theorem writes_normal (b : Board) (delta : Word) (s : State) :
    Writes b b.nPixels b.nPixels s (normalRenderer b delta s) :=
  writes_paint b _ { s with
    ase := { s.ase with phase := normalPhase s.ase.phase delta, hueAcc := normalHueAcc s.ase.hueAcc delta } }

theorem writes_tweak (b : Board) (s : State) : Writes b b.nPixels (b.nPixels + 7) s (tweakRenderer b s) :=
  (writes_paint ..).trans <| (writes_solidPair ..).trans <| (writes_solidPair ..).trans <|
    (writes_pxWrite ..).trans <| (writes_pxWrite ..).trans (writes_pxWrite ..)

/-- Two writes a pixel in a normal frame, and seven on top of the zeroes in a tweak frame, are the most. -/
theorem writes_renderFrame (b : Board) (delta : Word) (s : State) :
    Writes b b.nPixels (b.nPixels + 7) s (renderFrame b delta s) := by
  have h7 := b.nPixels_le
  have hn : Writes b b.nPixels (b.nPixels + 7) s (sparkleOverlay b delta (normalRenderer b delta s)) :=
    ((writes_normal b delta s).trans (writes_overlay b delta _)).mono le_rfl (by omega)
  unfold renderFrame
  split
  · exact (writes_transition b delta s).mono le_rfl (by omega)
  · unfold modeRenderer
    split
    case h_5 => exact (writes_paint ..).mono le_rfl (by omega)
    case h_6 => exact writes_tweak b s
    all_goals exact hn

/-- The ASE after a step that leaves the mode and the tweak data alone, as one record (R126). -/
theorem AnimOnly.ase {s t : State} (h : AnimOnly s t) :
    t.ase = { s.ase with
      lastUpdate := t.ase.lastUpdate, phase := t.ase.phase, hueAcc := t.ase.hueAcc,
      transitioning := t.ase.transitioning, decay := t.ase.decay, px := t.ase.px } := by
  simp only [← h.mode, ← h.tweakLfo, ← h.tweakCastor, ← h.tweakPollux]

/-- Settles O15: the frame is that of whichever renderer runs, and the flush and the response come after it. -/
theorem effectiveStepRendersOneFrame : Obligations.EffectiveStepRendersOneFrame := by
  intro s h
  have h7 := Config.board.nPixels_le
  have hlast := renderFrame_lastUpdate Config.board s.delta s.based
  have hkeeps := animOnly_renderFrame Config.board s.delta s.based
  obtain ⟨frame, hout, hframe, hlo, hhi⟩ := writes_renderFrame Config.board s.delta s.based
  refine ⟨_, frame, exec_animStep_of_le h, ?_, hframe, hlo, by omega, hkeeps.hsc, ?_, ?_⟩
  · rw [State.respond_env, State.flush_env, hout]; rfl
  · have hase := hkeeps.ase
    rw [hlast] at hase
    exact hase
  · rw [State.respond_env, State.flush_env, hkeeps.env]; rfl

end Sys2Proof.Machine
end

section
/-! The frames that write each pixel once: the transition frame and the calibration frame (R115, R121). -/

namespace Sys2Proof.Machine

/-- A transition frame sets `PHASE` and `TRANSITIONING` and paints every pixel alike (R115, R116). -/
theorem painted_transition (b : Board) (delta : Word) {s : State} (h : s.ase.transitioning = true) :
    Painted (fun _ => b.hsv (transHue b s.ase.mode) 255 (transValue (transPhase s.ase.phase delta))) b.nPixels
      { s with ase := { s.ase with
        phase := transPhase s.ase.phase delta
        transitioning := decide ((transPhase s.ase.phase delta).toInt ≤ 65536) } }
      (transitionRenderer b delta s) := by
  have hp := paint_spec b (fun _ => b.hsv (transHue b s.ase.mode) 255 (transValue (transPhase s.ase.phase delta)))
    { s with ase := { s.ase with phase := transPhase s.ase.phase delta } }
  simp only [transitionRenderer, fxOne_toInt]
  split
  case isTrue hover =>
    rw [decide_eq_false (not_le.mpr hover)]
    exact ⟨by rw [hp.ase], hp.hsc, hp.env, hp.px⟩
  case isFalse hunder =>
    rw [decide_eq_true (not_lt.mp hunder), ← h]
    exact ⟨hp.ase, hp.hsc, hp.env, hp.px⟩

/-- No advance takes a `PHASE` that is not negative below zero, since it saturates (R13, R115). -/
theorem transPhase_nonneg (phase : Fix16) (delta : Word) (h : 0 ≤ phase.toInt) :
    0 ≤ (transPhase phase delta).toInt := by
  rw [transPhase_toInt _ _ h]
  omega

/-- The brightness needs no clamp from above while `PHASE` is not negative (R115). -/
theorem transValue_toNat_clamped (phase : Fix16) (h : 0 ≤ phase.toInt) :
    ((transValue phase).toNat : Int) = max 0 (min 255 (255 * (65536 - phase.toInt) / 65536)) := by
  rw [transValue_toNat _ h]
  omega

/-- Settles O16: the frame paints each pixel once, from the advanced `PHASE`. -/
theorem transitionFrame : Obligations.TransitionFrame := by
  intro s h htrans hnonneg
  have hp := painted_transition Config.board s.delta (s := s.based) htrans
  have hexec := exec_animStep_of_renders h (renderFrame_of_transitioning _ _ _ htrans)
  generalize transitionRenderer Config.board s.delta s.based = u at hp hexec
  have hphase : u.ase.phase = transPhase s.ase.phase s.delta := congrArg Ase.phase hp.ase
  refine ⟨_, hexec, ?_, ?_, transHue Config.board s.ase.mode, transValue u.ase.phase, rfl, ?_, fun i hi => ?_, ?_,
    hp.hsc, ?_, fun i hi => (hp.px i).trans (if_neg hi.not_gt)⟩
  · exact hphase ▸ transPhase_toInt _ _ hnonneg
  · exact hphase ▸ congrArg Ase.transitioning hp.ase
  · exact transValue_toNat_clamped _ (hphase ▸ transPhase_nonneg _ _ hnonneg)
  · exact hphase ▸ (hp.px i).trans (if_pos hi)
  · rw [hphase, State.respond_env, State.flush_env, hp.env]; rfl
  · rw [State.respond_ase, State.flush_ase, hp.ase]; rfl

/-- A calibration frame paints the complementary colours (R121). -/
theorem painted_calibration (b : Board) (now : Word) (s : State) :
    Painted (calibrationColour b (calibrationValue b now)) b.nPixels s (calibrationRenderer b now s) :=
  paint_spec b _ s

/-- Settles O20: the frame paints each pixel once and writes no register. -/
theorem calibrationFrame : Obligations.CalibrationFrame := by
  intro s h htrans hmode
  have hp := painted_calibration Config.board s.based.env.now s.based
  have hexec := exec_animStep_of_renders h (renderFrame_calibration _ _ s.based htrans hmode)
  refine ⟨_, calibrationValue Config.board s.env.now, calibrationColour Config.board _, hexec,
    calibrationValue_toNat _ _, fun _ => rfl, fun i hi => (hp.px i).trans (if_pos hi), ?_, hp.hsc, hp.ase,
    fun i hi => (hp.px i).trans (if_neg hi.not_gt)⟩
  rw [State.respond_env, State.flush_env, hp.env]
  rfl

end Sys2Proof.Machine
end

section
/-! The frame of modes 0 to 3: the normal renderer, then the sparkle overlay (R117, R119). -/

namespace Sys2Proof.Machine

/-- What the overlay puts out from `s` with the hue accumulator at `hueAcc` (R119). -/
def overlayEvents (b : Board) (hueAcc : Word) (s : State) : List OutEvent :=
  (List.range b.nPixels).filterMap fun i =>
    if overlayDecay s i = 0#8 then none else some (.pxWrite i (sparkleColour b hueAcc i (overlayDecay s i)))

/-- Everything a frame of modes 0 to 3 does, in terms of the state before it. -/
structure NormalFrame (b : Board) (delta : Word) (s t : State) : Prop where
  phase : t.ase.phase = normalPhase s.ase.phase delta
  hueAcc : t.ase.hueAcc = normalHueAcc s.ase.hueAcc delta
  ase : t.ase = { s.ase with
    phase := t.ase.phase, hueAcc := t.ase.hueAcc, px := t.ase.px, decay := t.ase.decay }
  hsc : t.hsc = s.hsc
  env : t.env = { s.env with
    out := s.env.out ++
      (List.range b.nPixels).map (fun i => .pxWrite i (normalColour b t.ase.phase t.ase.hueAcc i)) ++
      overlayEvents b t.ase.hueAcc s
    draws := s.env.draws.drop b.nPixels
    drawn := s.env.drawn + (b.nPixels - s.env.draws.length) }
  decay : ∀ i, t.ase.decayAt i = if i < b.nPixels then decayedBy delta (overlayDecay s i) else s.ase.decayAt i
  px : ∀ i, t.ase.pxAt i =
    if i < b.nPixels then
      if overlayDecay s i = 0#8 then normalColour b t.ase.phase t.ase.hueAcc i
      else sparkleColour b t.ase.hueAcc i (overlayDecay s i)
    else s.ase.pxAt i

/-- The normal renderer neither draws nor writes a decay, so the overlay finds those of the state before it. -/
theorem overlayDecay_eq_of_painted {f : Nat → Word} {n : Nat} {s t : State} (h : Painted f n s t) (i : Nat) :
    overlayDecay t i = overlayDecay s i := by
  have hdraw : t.env.drawAt i = s.env.drawAt i := by rw [h.env]; rfl
  have hdecay : t.ase.decayAt i = s.ase.decayAt i := by rw [h.ase]; rfl
  rw [overlayDecay, overlayDecay, hdraw, hdecay]

theorem normalFrame_spec (b : Board) (delta : Word) (s : State) :
    NormalFrame b delta s (sparkleOverlay b delta (normalRenderer b delta s)) := by
  have hp : Painted (normalColour b (normalPhase s.ase.phase delta) (normalHueAcc s.ase.hueAcc delta)) b.nPixels
      { s with ase := { s.ase with phase := normalPhase s.ase.phase delta, hueAcc := normalHueAcc s.ase.hueAcc delta } }
      (normalRenderer b delta s) := paint_spec ..
  have ho := sparkleOverlay_spec b delta (normalRenderer b delta s)
  generalize normalRenderer b delta s = u at hp ho
  generalize sparkleOverlay b delta u = t at ho
  have hdecay (i : Nat) : overlayDecay u i = overlayDecay s i := overlayDecay_eq_of_painted hp i
  have huhue : u.ase.hueAcc = normalHueAcc s.ase.hueAcc delta := congrArg Ase.hueAcc hp.ase
  have hphase : t.ase.phase = normalPhase s.ase.phase delta :=
    (congrArg Ase.phase ho.ase).trans (congrArg Ase.phase hp.ase)
  have hhue : t.ase.hueAcc = normalHueAcc s.ase.hueAcc delta := (congrArg Ase.hueAcc ho.ase).trans huhue
  refine ⟨hphase, hhue, ?_, ho.hsc.trans hp.hsc, ?_, fun i => ?_, fun i => ?_⟩
  · rw [hphase, hhue, ho.ase, hp.ase]
  · rw [ho.env, hp.env, hphase, hhue, huhue]
    simp only [overlayEvents, hdecay]
  · rw [ho.decay, hdecay, hp.ase]; rfl
  · rw [ho.px, hdecay, huhue, hphase, hhue, hp.px]
    by_cases hi : i < b.nPixels
    · simp only [hi, true_and, if_true]
      exact ite_not ..
    · simp only [hi, false_and, if_false]
      rfl

/-- `PHASE` after a normal frame is a fraction (R117). -/
theorem normalPhase_lt (phase : Fix16) (delta : Word) : (normalPhase phase delta).toNat < 65536 := by
  simp only [normalPhase, BitVec.toNat_setWidth]
  omega

/-- The colour of the normal renderer, in naturals (R117). -/
theorem NormalFrame.normalColour_eq {b : Board} {delta : Word} {s t : State} (h : NormalFrame b delta s t) {i : Nat}
    (hi : i < b.nPixels) :
    normalColour b t.ase.phase t.ase.hueAcc i =
      b.hsv (BitVec.ofNat 16 (t.ase.hueAcc.toNat + (hueOffsetAt b i).toNat)) 255
        (BitVec.ofNat 8 (20 + 235 *
          (b.sineNorm (BitVec.ofNat 32 (t.ase.phase.toNat + i * 65536 / b.nPixels))).toNat / 65536)) := by
  have hlt : t.ase.phase.toNat < 65536 := h.phase ▸ normalPhase_lt _ _
  rw [normalColour, pixelHue_eq, normalValue_eq b _ i hi hlt]

/-- The trigger test, in naturals (R119). -/
theorem overlayDecay_eq (s : State) (i : Nat) :
    overlayDecay s i = if (s.env.drawAt i).toNat % 400 = 0 then 255 else s.ase.decayAt i := by
  simp only [overlayDecay, triggeredDecay, triggers, beq_iff_eq]

/-- Settles O17: the pixel loop reads the advanced registers, and the overlay's events follow it. -/
theorem normalFrameAdvances : Obligations.NormalFrameAdvances := by
  intro s h htrans h4 h5 hnonneg
  have hf := normalFrame_spec Config.board s.delta s.based
  have hexec := exec_animStep_of_renders h (renderFrame_normal _ _ s.based htrans h4 h5)
  generalize sparkleOverlay _ _ _ = u at hf hexec
  refine ⟨_, overlayEvents Config.board u.ase.hueAcc s, hexec, ?_, ?_, ?_, hf.hsc, hf.ase⟩
  · exact hf.phase ▸ normalPhase_toNat _ _ hnonneg
  · exact hf.hueAcc ▸ normalHueAcc_toNat _ _
  · rw [State.respond_env, State.flush_env, hf.env, List.map_congr_left fun i hi =>
      congrArg (OutEvent.pxWrite i) (hf.normalColour_eq (List.mem_range.mp hi))]
    rfl

/-- Settles O18: the decays are those of the state before the step after its draws, the colours those of the registers
after it. -/
theorem sparkleOverlayFrame : Obligations.SparkleOverlayFrame := by
  intro s h htrans h4 h5
  have hf := normalFrame_spec Config.board s.delta s.based
  have hexec := exec_animStep_of_renders h (renderFrame_normal _ _ s.based htrans h4 h5)
  generalize sparkleOverlay _ _ _ = u at hf hexec
  refine ⟨_, hexec, overlayDecay s, normalColour Config.board u.ase.phase u.ase.hueAcc,
    fun i => sparkleColour Config.board u.ase.hueAcc i (overlayDecay s i), overlayDecay_eq s,
    fun i hi => hf.normalColour_eq hi, fun i => ?_, fun i hi => (hf.px i).trans (if_pos hi), fun i hi => ?_,
    fun i hi => ⟨(hf.decay i).trans (if_neg hi.not_gt), (hf.px i).trans (if_neg hi.not_gt)⟩, ?_⟩
  · simp only [sparkleColour, pixelHue_eq]; rfl
  · exact (congrArg BitVec.toNat ((hf.decay i).trans (if_pos hi))).trans (decayedBy_toNat _ _)
  · rw [State.respond_env, State.flush_env, hf.env]; rfl

end Sys2Proof.Machine
end

section
/-! The frame of mode 5 (R123). -/

namespace Sys2Proof.Machine

/-! ## Its events -/

/-- Pixel writes one after another: those at or above `N_PIXELS` are dropped, the others leave in order (R18). -/
theorem foldl_pxWrite_out (b : Board) (ws : List (Nat × Word)) (s : State) :
    (ws.foldl (fun s p => s.pxWrite b p.1 p.2) s).env.out =
      s.env.out ++ (ws.filter (fun p => decide (p.1 < b.nPixels))).map (fun p => .pxWrite p.1 p.2) := by
  induction ws generalizing s with
  | nil => simp
  | cons p ws ih =>
    rw [List.foldl_cons, ih]
    rcases lt_or_ge p.1 b.nPixels with hp | hp
    · rw [State.pxWrite_of_lt _ _ _ _ hp]
      simp [hp]
    · rw [State.pxWrite_of_ge _ _ _ _ hp]
      simp [hp.not_gt]

theorem solidPair_eq_foldl (b : Board) (e : Bool) (i : Nat) (c : Word) (s : State) :
    s.solidPair b e i c =
      (if e then [(i, c), (i + 1, c)] else []).foldl (fun s p => s.pxWrite b p.1 p.2) s := by
  cases e <;> rfl

/-- The writes that follow the zeroes of a tweak frame, in order (R123). -/
def tweakWrites (b : Board) (s : State) : List (Nat × Word) :=
  (if s.ase.tweakCastor then [(0, b.castorColor), (1, b.castorColor)] else []) ++
    (if s.ase.tweakPollux then [(2, b.polluxColor), (3, b.polluxColor)] else []) ++
    [(4, tweakColour b s.ase.tweakLfo), (5, tweakColour b s.ase.tweakLfo), (6, tweakColour b s.ase.tweakLfo)]

theorem tweakRenderer_eq_foldl (b : Board) (s : State) :
    tweakRenderer b s =
      (tweakWrites b s).foldl (fun s p => s.pxWrite b p.1 p.2) (State.paint b (fun _ => 0) s) := by
  simp only [tweakRenderer, tweakWrites, List.foldl_append, solidPair_eq_foldl]
  rfl

theorem tweakRenderer_out (b : Board) (s : State) :
    (tweakRenderer b s).env.out =
      s.env.out ++ (List.range b.nPixels).map (fun i => .pxWrite i 0) ++
        ((tweakWrites b s).filter (fun p => decide (p.1 < b.nPixels))).map (fun p => .pxWrite p.1 p.2) := by
  rw [tweakRenderer_eq_foldl, foldl_pxWrite_out, (paint_spec b _ s).env]

/-! ## Its pixels -/

theorem solidPair_px (b : Board) (e : Bool) (i j : Nat) (c : Word) (s : State) (hj : j < b.nPixels) :
    (s.solidPair b e i c).ase.pxAt j = if e = true ∧ (i = j ∨ i + 1 = j) then c else s.ase.pxAt j := by
  cases e
  · simp [State.solidPair]
  · simp only [State.solidPair, if_true, pxWrite_px _ _ _ _ _ hj, true_and]
    by_cases h0 : i = j
    · simp [h0]
    · simp [h0]

theorem solidPair_beyond (b : Board) (e : Bool) (i j : Nat) (c : Word) (s : State) (hj : b.nPixels ≤ j) :
    (s.solidPair b e i c).ase.pxAt j = s.ase.pxAt j := by
  cases e
  · rfl
  · simp only [State.solidPair, if_true, pxWrite_beyond _ _ _ _ _ hj]

theorem tweakRenderer_px (b : Board) (s : State) (i : Nat) (hi : i < b.nPixels) :
    (tweakRenderer b s).ase.pxAt i =
      if i < 2 then (if s.ase.tweakCastor then b.castorColor else 0)
      else if i < 4 then (if s.ase.tweakPollux then b.polluxColor else 0)
      else tweakColour b s.ase.tweakLfo := by
  have h7 : i < 7 := hi.trans_le b.nPixels_le
  simp only [tweakRenderer, pxWrite_px _ _ _ _ _ hi, solidPair_px _ _ _ _ _ _ hi, (paint_spec b _ s).px, if_pos hi]
  interval_cases i <;> simp

theorem tweakRenderer_beyond (b : Board) (s : State) (i : Nat) (hi : b.nPixels ≤ i) :
    (tweakRenderer b s).ase.pxAt i = s.ase.pxAt i := by
  simp only [tweakRenderer, pxWrite_beyond _ _ _ _ _ hi, solidPair_beyond _ _ _ _ _ _ hi, (paint_spec b _ s).px,
    if_neg hi.not_gt]

/-! ## The brightness of pixels 4 to 6 -/

/-- Adding 1.0 can only saturate upwards (R13). -/
theorem fxAdd_one_toInt (x : Fix16) : (fxAdd x fxOne).toInt = min 2147483647 (x.toInt + 65536) := by
  have hlo := x.le_toInt
  rw [fxAdd_toInt, fxOne_toInt, clamp]
  omega

/-- Division by 2 truncates toward zero and never saturates (R13). -/
theorem fxDiv_two_toInt (x : Fix16) : (fxDiv x (fxFromUint 2)).toInt = x.toInt.tdiv 2 := by
  have hlo := x.le_toInt
  have hhi := x.toInt_lt
  have hhalf : (x.toInt.tdiv 2).natAbs = x.toInt.natAbs / 2 := Int.natAbs_tdiv _ _
  have h2 : (fxFromUint 2).toInt = 2 * 65536 := by decide
  rw [fxDiv_toInt _ _ (by decide), h2, Int.mul_tdiv_mul_of_pos_left _ _ (by decide)]
  exact clamp_of_mem (by omega) (by omega)

/-- A product with a whole number has no fraction to floor (R13). -/
theorem fxMul_255_toInt (x : Fix16) :
    (fxMul x (fxFromUint 255)).toInt = max (-2147483648) (min 2147483647 (255 * x.toInt)) := by
  have h255 : (fxFromUint 255).toInt = 255 * 65536 := by decide
  have hwhole : (x.toInt * (255 * 65536)).fdiv 65536 = 255 * x.toInt := by
    rw [← mul_assoc, Int.mul_fdiv_cancel _ (by decide), mul_comm]
  rw [fxMul_toInt, h255, hwhole, clamp]

/-- The remap of `TWEAK_LFO`, in integers, for every value it can hold (R123; decision D14). -/
theorem tweakValue_eq (lfo : Fix16) :
    tweakValue lfo = BitVec.ofInt 8
      (max (-2147483648) (min 2147483647 (255 * (min 2147483647 (lfo.toInt + 65536)).tdiv 2)) / 65536) := by
  rw [tweakValue, byteOf, fxToInt, fxMul_255_toInt, fxDiv_two_toInt, fxAdd_one_toInt,
    Int.fdiv_eq_ediv_of_nonneg _ (by decide)]

/-- Settles O22: the frame writes pixels only, in the order of the list of its writes. -/
theorem tweakFrame : Obligations.TweakFrame := by
  intro s h htrans hmode
  have hexec := exec_animStep_of_renders h (renderFrame_flagTweak _ _ s.based htrans hmode)
  have honly := pxOnly_tweakRenderer Config.board s.based
  refine ⟨_, hexec, tweakColour Config.board s.ase.tweakLfo, ?_, tweakRenderer_px _ s.based, ?_, honly.hsc, honly.ase,
    tweakRenderer_beyond _ s.based⟩
  · rw [tweakColour, tweakValue_eq]
  · rw [State.respond_env, State.flush_env, honly.env, tweakRenderer_out]
    rfl

end Sys2Proof.Machine
end

section
/-! The port while a bring-up runs: no command, no output event, and the ASE stands still (R144). -/

namespace Sys2Proof.Machine

/-- A command runs only at the open port (R82). -/
theorem State.Runs.pinitState_eq_zero {s : State} {i : Instr} (hr : s.Runs i) : s.hsc.pinitState = 0 :=
  have ⟨_, hopen, _⟩ := hr
  (portOpen_iff _).mp hopen

/-- Only a command or a reset of the block changes the ASE, and only a command puts an event out (R22). -/
theorem step_ase_out_of_pinitState_ne_zero {s t : State} (hp : s.hsc.pinitState ≠ 0) (h : step s = .next t)
    (hne : s.nextEvent ≠ .reset) : t.ase = s.ase ∧ t.env.out = s.env.out := by
  cases step_ase h with
  | same hase hout => exact ⟨hase, hout⟩
  | reset he => exact absurd he hne
  | mode _ _ hr | init hr | lfo _ hr | enables _ _ hr | frame _ hr => exact absurd hr.pinitState_eq_zero hp

@[simp] theorem rowRespond_cmds (n : BitVec 4) (s : State) : (rowRespond n s).env.cmds = s.env.cmds := by
  unfold rowRespond; split <;> rfl

/-- The words still to issue can only gain one at the end, by the host's decision (R7). -/
theorem step_cmds_of_pinitState_ne_zero {s t : State} (hp : s.hsc.pinitState ≠ 0) (h : step s = .next t) :
    t.env.cmds = s.env.cmds ∨ ∃ w, s.nextEvent = .issue w ∧ t.env.cmds = s.env.cmds ++ [w] := by
  cases step_cases h with
  | command _ _ _ _ h0 | reserved _ _ _ _ h0 => exact absurd h0 hp
  | issue w he ht => exact .inr ⟨w, he, by simp [ht, issueMove]⟩
  | row _ _ _ ht => exact .inl (by simp [ht])
  | tick _ _ _ ht | ack _ _ _ _ ht | handler _ _ ht | idle _ ht => exact .inl (by simp [ht])
  | reset _ ht => exact .inl (by simp [ht, resetMove])
  | now _ _ ht => exact .inl (by simp [ht, nowMove])

/-- Settles O7: no command runs at a closed port, and the other moves reach neither the ASE nor the output. -/
theorem portClosedDuringBringUp : Obligations.PortClosedDuringBringUp := by
  refine fun s hp => ⟨Bool.eq_false_iff.mpr (mt (portOpen_iff _).mp hp), fun t h hne => ?_⟩
  obtain ⟨hase, hout⟩ := step_ase_out_of_pinitState_ne_zero hp h hne
  rcases step_cmds_of_pinitState_ne_zero hp h with hcmds | ⟨w, he, hcmds⟩
  · exact ⟨hcmds ▸ List.prefix_rfl, hout, hase, fun _ => hcmds⟩
  · exact ⟨hcmds ▸ List.prefix_append .., hout, hase, fun hhost => nomatch he.symm.trans hhost⟩

end Sys2Proof.Machine
end

section
/-! The pulse commands that write in one step: the word of each, and the whole state each leaves (R147, R148, R150). -/

namespace Sys2Proof.Laws

/-- The word of `PULSE_SET_PERIOD`, whose channel fills `sel` (R147). -/
theorem encode_pulseSetPeriod (ch : BitVec 4) (period : Word) :
    encode (.pulseSetPeriod ch period) = 0x9000000000 + (ch.setWidth 40 <<< 32) + period.setWidth 40 := by
  apply BitVec.eq_of_toNat_eq
  have hch := ch.isLt
  have hperiod := period.isLt
  simp only [encode, wordOf_toNat, BitVec.toNat_add, BitVec.toNat_shiftLeft, BitVec.toNat_setWidth, Nat.shiftLeft_eq,
    BitVec.natCast_eq_ofNat, BitVec.ofNat_eq_ofNat, BitVec.toNat_ofNat]
  omega

theorem encode_pulseSetHardSync_toNat (e : Bool) :
    (encode (.pulseSetHardSync e)).toNat = 0xA000000000 + e.toNat := by
  cases e <;> decide

end Sys2Proof.Laws

namespace Sys2Proof.Machine

/-! ## `PULSE_SET_PERIOD` (R147, R148) -/

/-- The numbers that select no channel (R63). -/
theorem selectedChan_of_two_le {ch : BitVec 4} (h : 2 ≤ ch.toNat) : selectedChan ch = none := by
  revert ch; decide

theorem exec_pulseSetPeriod_of_selected {ch : BitVec 4} {c : Chan} (h : selectedChan ch = some c) (period : Word)
    (s : State) :
    exec (.pulseSetPeriod ch period) s =
      .next (State.respond { s with hsc := s.hsc.onChan c (Channel.program period) } 0) := by
  simp only [exec, execPulseSetPeriod, h]

theorem exec_pulseSetPeriod_of_none {ch : BitVec 4} (h : selectedChan ch = none) (period : Word) (s : State) :
    exec (.pulseSetPeriod ch period) s = .next (s.respond 0) := by
  simp only [exec, execPulseSetPeriod, h]

/-- The compare value is half the period, rounded down (R147; decision D19). -/
theorem Channel.program_eq (period : Word) (ch : Channel) :
    ch.program period = { ch with perb := period, ccb := BitVec.ofNat 32 (period.toNat / 2) } := by
  have hhalf : period >>> 1 = BitVec.ofNat 32 (period.toNat / 2) := by
    rw [← Nat.shiftRight_one, ← BitVec.toNat_ushiftRight, BitVec.ofNat_toNat, BitVec.setWidth_eq]
  rw [Channel.program, hhalf]

/-- Settles O39: channels 0 and 1 are the two that a channel field selects. -/
theorem setPeriodWritesBuffers : Obligations.SetPeriodWritesBuffers := by
  refine fun ch period => ⟨Laws.encode_pulseSetPeriod ch period, fun s => ⟨?_, ?_⟩⟩
  · rintro rfl
    rw [exec_pulseSetPeriod_of_selected (c := .ch0) rfl, Hsc.onChan, Channel.program_eq]
    rfl
  · rintro rfl
    rw [exec_pulseSetPeriod_of_selected (c := .ch1) rfl, Hsc.onChan, Channel.program_eq]
    rfl

/-- Settles O40: a channel field from 2 up selects no channel. -/
theorem setPeriodIgnoresOtherChannels : Obligations.SetPeriodIgnoresOtherChannels :=
  fun _ period s hch => exec_pulseSetPeriod_of_none (selectedChan_of_two_le hch) period s

/-! ## `PULSE_SET_HARD_SYNC` (R150) -/

@[simp] theorem Hsc.onBoth_hardSync (h : Hsc) (f : Chan → Channel → Channel) :
    (h.onBoth f).hardSync = h.hardSync := rfl

/-- No row of a bring-up writes the flag (R141, R142). -/
theorem rowAction_hardSync (b : Board) (n : BitVec 4) (h : Hsc) : (rowAction b n h).hardSync = h.hardSync := by
  unfold rowAction
  split
  case h_1 | h_4 | h_5 | h_6 | h_7 => exact h.onBoth_hardSync _
  case h_8 | h_9 => exact h.onChan_hardSync _ _
  case h_2 | h_3 | h_10 | h_11 => rfl

/-- The handler reads the flag and does not write it (R175). -/
theorem takeOverflowInterrupt_hardSync (b : Board) (h : Hsc) :
    (h.takeOverflowInterrupt b).hardSync = h.hardSync := by
  simp only [Hsc.takeOverflowInterrupt]
  split
  · exact Hsc.onChan_hardSync ..
  · rfl

/-- Settles O42: the command writes the flag, and nothing that follows it in a bring-up or in the handler does. -/
theorem setHardSyncWritesFlag : Obligations.SetHardSyncWritesFlag :=
  ⟨fun e => ⟨Laws.encode_pulseSetHardSync_toNat e, fun _ => rfl⟩,
    fun b h => ⟨fun n => rowAction_hardSync b n h, takeOverflowInterrupt_hardSync b h⟩⟩

end Sys2Proof.Machine
end

section
/-! `RDREG`: its word, the map from numbers to registers, and the value each register shows (R22, R67, R160, R161). -/

namespace Sys2Proof.Laws

theorem encode_rdreg (n : BitVec 8) : encode (.rdreg n) = 0xF000000000 + n.setWidth 40 := by
  have hn : (n.setWidth 32 : Word).setWidth 40 = n.setWidth 40 := BitVec.setWidth_setWidth (by decide)
  calc encode (.rdreg n)
    _ = wordOf 0xF 0 0 + (n.setWidth 32 : Word).setWidth 40 := wordOf_sel_zero _ _
    _ = 0xF000000000 + n.setWidth 40 := congrArg _ hn

end Sys2Proof.Laws

namespace Sys2Proof.Machine

/-! ## The number of each register (R22) -/

/-- `0x30 + 8*c`, the number of the first register of channel `c`. -/
def chanRegBase : Chan → Nat
  | .ch0 => 0x30
  | .ch1 => 0x38

theorem registerOf_decay : ∀ i : Fin 7, registerOf (BitVec.ofNat 8 (0x08 + i)) = some (.decay i) := by decide

theorem registerOf_px : ∀ i : Fin 7, registerOf (BitVec.ofNat 8 (0x10 + i)) = some (.px i) := by decide

theorem registerOf_chan (c : Chan) :
    ∀ k : Fin 8, registerOf (BitVec.ofNat 8 (chanRegBase c + k)) = some (chanReg c (BitVec.ofNat 3 k)) := by
  cases c with
  | ch0 => decide
  | ch1 => decide

/-- The numbers that name no register (R22, R161). -/
theorem registerOf_unimplemented : ∀ n : BitVec 8,
    n = 0x07 ∨ n = 0x0F ∨ (0x17 ≤ n.toNat ∧ n.toNat ≤ 0x1F) ∨ (0x25 ≤ n.toNat ∧ n.toNat ≤ 0x2F) ∨ 0x40 ≤ n.toNat →
    registerOf n = none := by decide

theorem State.readNumber_of_none {n : BitVec 8} (h : registerOf n = none) (s : State) : s.readNumber n = 0 := by
  simp only [State.readNumber, h]

/-- A number given by its value reads the register that the map gives for that value. -/
theorem State.readNumber_of_toNat {n : BitVec 8} {m : Nat} {r : RegName} (hn : n.toNat = m)
    (hr : registerOf (BitVec.ofNat 8 m) = some r) (s : State) : s.readNumber n = s.readReg r := by
  rw [← hn, BitVec.ofNat_toNat, BitVec.setWidth_eq] at hr
  simp only [State.readNumber, hr]

/-! ## The value of each narrow register, by its fields (R23 to R41, R160) -/

theorem flagWord_toNat (b : Bool) : (flagWord b).toNat = b.toNat := by cases b <;> rfl

theorem readReg_mode_toNat (s : State) : (s.readReg .mode).toNat = s.ase.mode.code.toNat :=
  BitVec.toNat_setWidth_of_le (by decide)

theorem readReg_decay_toNat (s : State) (i : Fin 7) : (s.readReg (.decay i)).toNat = (s.ase.decayAt i).toNat :=
  BitVec.toNat_setWidth_of_le (by decide)

theorem readReg_pinitState_toNat (s : State) : (s.readReg .pinitState).toNat = s.hsc.pinitState.toNat :=
  BitVec.toNat_setWidth_of_le (by decide)

theorem readReg_clkctrl_toNat (s : State) :
    (s.readReg .clkctrl).toNat = 4 * s.hsc.gclkEn.toNat + 2 * s.hsc.ch1.clkEn.toNat + s.hsc.ch0.clkEn.toNat :=
  calc (s.readReg .clkctrl).toNat
    _ = s.hsc.clkctrl.toNat := BitVec.toNat_setWidth_of_le (by decide)
    _ = (BitVec.ofBool s.hsc.gclkEn ++ BitVec.ofBool s.hsc.ch1.clkEn).toNat * 2 + s.hsc.ch0.clkEn.toNat :=
      BitVec.toNat_concat _ _
    _ = _ := by rw [Laws.toNat_flagPair]; omega

theorem readReg_ctrl_toNat (s : State) (c : Chan) :
    (s.readReg (.ctrl c)).toNat =
      4 * (s.hsc.chan c).presc.toNat + 2 * (s.hsc.chan c).wave.toNat + (s.hsc.chan c).enable.toNat :=
  calc (s.readReg (.ctrl c)).toNat
    _ = (s.hsc.chan c).ctrl.toNat := BitVec.toNat_setWidth_of_le (by decide)
    _ = ((s.hsc.chan c).presc ++ BitVec.ofBool (s.hsc.chan c).wave).toNat * 2 + (s.hsc.chan c).enable.toNat :=
      BitVec.toNat_concat _ _
    _ = ((s.hsc.chan c).presc.toNat * 2 + (s.hsc.chan c).wave.toNat) * 2 + (s.hsc.chan c).enable.toNat :=
      congrArg (· * 2 + _) (BitVec.toNat_concat _ _)
    _ = _ := by omega

theorem readReg_syncbusy_toNat (s : State) (c : Chan) :
    (s.readReg (.syncbusy c)).toNat = 2 * (s.hsc.chan c).enableBusy.toNat + (s.hsc.chan c).swrstBusy.toNat :=
  Laws.toNat_flagPair_word _ _

theorem readReg_pinstat_toNat (s : State) (c : Chan) :
    (s.readReg (.pinstat c)).toNat = 2 * (s.hsc.chan c).pwmOut.toNat + (s.hsc.chan c).pmux.toNat :=
  Laws.toNat_flagPair_word _ _

/-! ## The command -/

/-- No register that `RDREG` reads is held in the response (R22, R67). -/
@[simp] theorem State.readReg_respond (s : State) (v : Word) (r : RegName) :
    (s.respond v).readReg r = s.readReg r := by cases r <;> rfl

@[simp] theorem State.readNumber_respond (s : State) (v : Word) (n : BitVec 8) :
    (s.respond v).readNumber n = s.readNumber n := by
  simp only [State.readNumber, State.readReg_respond]

theorem exec_rdreg (n : BitVec 8) (s : State) : exec (.rdreg n) s = .next (s.respond (s.readNumber n)) := rfl

/-- A second read of the same number answers what the first did (R67). -/
theorem exec_rdreg_respond (n : BitVec 8) (s : State) (v : Word) :
    exec (.rdreg n) (s.respond v) = .next (s.respond (s.readNumber n)) := by
  rw [exec_rdreg, State.readNumber_respond]
  rfl

/-- Settles O44: the number names a register or none, and the response is that register's value. -/
theorem rdregReadsByNumber : Obligations.RdregReadsByNumber := by
  intro n s
  refine ⟨Laws.encode_rdreg n, s.readNumber n, exec_rdreg n s, exec_rdreg_respond n s _, ?mode, ?lastUpdate, ?phase,
    ?hueAcc, ?transitioning, ?tweakLfo, ?tweakEn, ?decay, ?px, ?hardSync, ?pinitState, ?intflag, ?inten, ?clkctrl,
    ?channel, fun hn => s.readNumber_of_none (registerOf_unimplemented n hn)⟩
  case mode => rintro rfl; exact readReg_mode_toNat s
  case lastUpdate | phase | hueAcc | tweakLfo => rintro rfl; rfl
  case transitioning | hardSync | intflag | inten => rintro rfl; exact flagWord_toNat _
  case tweakEn => rintro rfl; exact readReg_tweakEn_toNat s
  case decay =>
    intro i hi hn
    rw [s.readNumber_of_toNat hn (registerOf_decay ⟨i, hi⟩)]
    exact readReg_decay_toNat s ⟨i, hi⟩
  case px => exact fun i hi hn => s.readNumber_of_toNat hn (registerOf_px ⟨i, hi⟩)
  case pinitState => rintro rfl; exact readReg_pinitState_toNat s
  case clkctrl => rintro rfl; exact readReg_clkctrl_toNat s
  case channel =>
    intro c base hbase
    obtain rfl : base = chanRegBase c := by rcases hbase with ⟨rfl, rfl⟩ | ⟨rfl, rfl⟩ <;> rfl
    have hread (k : Fin 8) (hn : n.toNat = chanRegBase c + k) :
        s.readNumber n = s.readReg (chanReg c (BitVec.ofNat 3 k)) :=
      s.readNumber_of_toNat hn (registerOf_chan c k)
    exact ⟨fun hn => (congrArg BitVec.toNat (hread 0 hn)).trans (readReg_ctrl_toNat s c),
      fun hn => (congrArg BitVec.toNat (hread 1 hn)).trans (readReg_syncbusy_toNat s c),
      hread 2, hread 3, hread 4, hread 5, hread 6,
      fun hn => (congrArg BitVec.toNat (hread 7 hn)).trans (readReg_pinstat_toNat s c)⟩

end Sys2Proof.Machine
end

section
/-! Every step answers a next state: no command, no encoding and no event faults (R170, R171). -/

namespace Sys2Proof.Machine

theorem exec_answers_next (i : Instr) (s : State) : ∃ t, exec i s = .next t := by
  cases i with
  | animInit | animSetMode _ | animStep | tweakSetLfo _ | tweakSetEn _ _ | pulseInit | pulseSetPeriod _ _
  | pulseSetHardSync _ | rdreg _ => exact ⟨_, rfl⟩

theorem runWord_answers_next (w : CmdWord) (s : State) : ∃ t, runWord w s = .next t := by
  cases hd : decode w with
  | ok i => exact runWord_of_decode_ok hd s ▸ exec_answers_next i s
  | error r => exact ⟨_, runWord_of_decode_error hd s⟩

theorem hostMove_of_no_command {s : State} (hp : s.hsc.portOpen = true) (hc : s.env.cmds = []) :
    hostMove s = .next s := by
  simp only [hostMove, if_pos hp, acceptCommand, hc]

theorem hostMove_answers_next (s : State) : ∃ t, hostMove s = .next t := by
  by_cases hp : s.hsc.portOpen = true
  · cases hc : s.env.cmds with
    | nil => exact ⟨s, hostMove_of_no_command hp hc⟩
    | cons w rest => exact hostMove_of_portOpen hp hc ▸ runWord_answers_next w _
  · exact ⟨_, if_neg hp⟩

theorem move_answers_next (e : Event) (s : State) : ∃ t, move e s = .next t := by
  cases e with
  | host => exact hostMove_answers_next s
  | timer _ | ack _ _ | handler | reset | now _ | issue _ => exact ⟨_, rfl⟩

/-- Settles O8: a step is a move, and only the host's could have failed to answer. -/
theorem everyStepAnswersNext : Obligations.EveryStepAnswersNext :=
  fun s => move_answers_next s.nextEvent s.afterEvent

end Sys2Proof.Machine
end

section
/-! The moves of the timers, of the interrupt handler and of the acknowledges where they are enabled: what each does to the
HSC, everything else standing still (R175, R180 to R183). -/

namespace Sys2Proof.Machine

/-! ## A tick and its overflow (R180, R181) -/

theorem Hsc.clocked_iff (h : Hsc) (c : Chan) : h.clocked c = true ↔ (h.chan c).clkEn = true ∧ h.gclkEn = true :=
  Bool.and_eq_true_iff

theorem Hsc.timerEnabled_iff (h : Hsc) (c : Chan) :
    h.timerEnabled c = true ↔ (h.chan c).enable = true ∧ (h.chan c).clkEn = true ∧ h.gclkEn = true := by
  rw [Hsc.timerEnabled, Bool.and_eq_true_iff, h.clocked_iff]

theorem step_of_timerEnabled {s : State} {c : Chan} (he : s.nextEvent = .timer c) (hn : s.hsc.timerEnabled c = true) :
    step s = .next { s.afterEvent with hsc := s.hsc.tick c } := by
  simp only [step, move, he, timerMove, State.afterEvent_hsc, if_pos hn]

theorem Hsc.tick_of_count_lt {h : Hsc} {c : Chan} (hlt : (h.chan c).count < (h.chan c).per) :
    h.tick c = h.onChan c (fun ch => { ch with count := ch.count + 1 }) :=
  if_neg (BitVec.not_le.mpr hlt)

theorem Hsc.tick_of_per_le {h : Hsc} {c : Chan} (hle : (h.chan c).per ≤ (h.chan c).count) : h.tick c = h.overflow c :=
  if_pos hle

/-- A count below some other word has room for one more (R180). -/
theorem toNat_add_one_of_lt {x y : Word} (h : x < y) : (x + 1).toNat = x.toNat + 1 := by
  bv_omega

/-- Settles O45: the period bounds the count, so counting one more does not wrap. -/
theorem timerTickCounts : Obligations.TimerTickCounts := by
  refine fun s c he => ⟨fun hen hclk hg hlt => ?_, fun hen hclk hg hle => ?_⟩
  · have hstep := step_of_timerEnabled he ((s.hsc.timerEnabled_iff c).mpr ⟨hen, hclk, hg⟩)
    rw [Hsc.tick_of_count_lt hlt] at hstep
    refine ⟨_, hstep, rfl, rfl, ?_⟩
    rw [Hsc.onChan_chan_self]
    exact toNat_add_one_of_lt hlt
  · rw [step_of_timerEnabled he ((s.hsc.timerEnabled_iff c).mpr ⟨hen, hclk, hg⟩), Hsc.tick_of_per_le hle]

/-- The pending flag is set here and nowhere else (R174, R181). -/
theorem Hsc.overflow_ch0 (h : Hsc) : h.overflow .ch0 =
    { h with intflag := true, ch0 := { h.ch0 with count := 0, per := h.ch0.perb, cc := h.ch0.ccb } } := rfl

theorem Hsc.overflow_ch1 (h : Hsc) : h.overflow .ch1 =
    { h with ch1 := { h.ch1 with count := 0, per := h.ch1.perb, cc := h.ch1.ccb } } := rfl

/-- Settles O46: the step is the overflow of that channel, as O45 says. -/
theorem overflowLatchesBuffers : Obligations.OverflowLatchesBuffers := by
  intro s c he hen hclk hg hle
  obtain ⟨-, hover⟩ := timerTickCounts s c he
  refine ⟨_, hover hen hclk hg hle, ?_, ?_⟩
  · rintro rfl
    rw [Hsc.overflow_ch0]
  · rintro rfl
    rw [Hsc.overflow_ch1]

/-! ## The interrupt handler and the retrigger (R175, R182) -/

theorem step_of_handlerEnabled {s : State} (he : s.nextEvent = .handler) (hn : s.hsc.handlerEnabled = true) :
    step s = .next { s.afterEvent with hsc := s.hsc.takeOverflowInterrupt Config.board } := by
  simp only [step, move, he, handlerMove, State.afterEvent_hsc, if_pos hn]

theorem Hsc.handlerEnabled_iff (h : Hsc) : h.handlerEnabled = true ↔ h.intflag = true ∧ h.inten = true :=
  Bool.and_eq_true_iff

/-- `RETRIGGER_UPDATES` decides whether the buffers are latched, and the count returns to 0 either way (R182; decision
D20). -/
theorem Channel.restart_eq (b : Board) (ch : Channel) : ch.restart b = { ch with
    count := 0
    per := if b.retriggerUpdates then ch.perb else ch.per
    cc := if b.retriggerUpdates then ch.ccb else ch.cc } := by
  cases hb : b.retriggerUpdates with
  | true => simp [Channel.restart, Channel.latch, hb]
  | false => simp [Channel.restart, hb]

theorem Hsc.takeOverflowInterrupt_eq (b : Board) (h : Hsc) : h.takeOverflowInterrupt b =
    { h with intflag := false, ch1 := if h.hardSync then h.ch1.restart b else h.ch1 } := by
  cases hs : h.hardSync with
  | true => simp [Hsc.takeOverflowInterrupt, Hsc.retrigger, Hsc.onChan, hs]
  | false => simp [Hsc.takeOverflowInterrupt, hs]

/-- Settles O47: the handler is entered, and `HARD_SYNC` alone decides whether channel 1 restarts. -/
theorem handlerServesOverflow : Obligations.HandlerServesOverflow := by
  intro s he hflag hen
  rw [step_of_handlerEnabled he (s.hsc.handlerEnabled_iff.mpr ⟨hflag, hen⟩), Hsc.takeOverflowInterrupt_eq,
    Channel.restart_eq]

/-! ## The acknowledge events (R183) -/

theorem step_of_ackEnabled {s : State} {c : Chan} {k : AckKind} (he : s.nextEvent = .ack c k)
    (hn : s.hsc.ackEnabled c k = true) : step s = .next { s.afterEvent with hsc := s.hsc.acknowledge c k } := by
  simp only [step, move, he, ackMove, State.afterEvent_hsc, if_pos hn]

theorem Hsc.ackEnabled_iff (h : Hsc) (c : Chan) (k : AckKind) :
    h.ackEnabled c k = true ↔ ((h.chan c).clkEn = true ∧ h.gclkEn = true) ∧ (h.chan c).busy k = true := by
  rw [Hsc.ackEnabled, Bool.and_eq_true_iff, h.clocked_iff]

/-- Settles O50: with the clocks on and its bit set the acknowledge is enabled, and each kind clears its own bit. -/
theorem acknowledgeClearsBusyBit : Obligations.AcknowledgeClearsBusyBit := by
  intro s c k he hclk hg hbusy
  rw [step_of_ackEnabled he ((s.hsc.ackEnabled_iff c k).mpr ⟨⟨hclk, hg⟩, hbusy⟩)]
  cases k with
  | swrst | enable => rfl

end Sys2Proof.Machine
end

section
/-! The reset input (R200, R201; decision D15). -/

namespace Sys2Proof.Machine

theorem step_of_reset {s : State} (he : s.nextEvent = .reset) : step s = .next (resetMove s.afterEvent) := by
  simp only [step, move, he]

/-- Taking a move off the schedule draws no random word (R17). -/
@[simp] theorem State.afterEvent_draws (s : State) : s.afterEvent.env.draws = s.env.draws := by rw [State.afterEvent_env]

@[simp] theorem State.afterEvent_drawn (s : State) : s.afterEvent.env.drawn = s.env.drawn := by rw [State.afterEvent_env]

/-- Settles O53: `resetMove` replaces both sub-blocks by their reset values and of the ports changes the response alone,
and taking the move off the schedule touches no collaborator. -/
theorem resetMoveClearsEveryRegister : Obligations.ResetMoveClearsEveryRegister := by
  intro s he
  have hread : ∀ r, (resetMove s.afterEvent).readReg r = 0 := State.readReg_of_reset rfl rfl
  exact ⟨resetMove s.afterEvent, step_of_reset he, hread, rfl, rfl, rfl, rfl, rfl,
    s.afterEvent_now, s.afterEvent_draws, s.afterEvent_drawn, s.afterEvent_out⟩

end Sys2Proof.Machine
end

section
/-! The encoder undoes the decoder and the decoder the encoder, and both agree with the opcode map (R83 to R86). -/

namespace Sys2Proof.Laws

/-! ## The word of a decoded command -/

/-- An operand narrower than `imm` is the whole of `imm` where the must-be-zero bits are zero (R83, R84). -/
theorem setWidth_extractLsb'_of_lt {x : Word} {n : Nat} (h : x.toNat < 2 ^ n) :
    (x.extractLsb' 0 n).setWidth 32 = x := by
  apply BitVec.eq_of_toNat_eq
  rw [BitVec.toNat_setWidth, BitVec.extractLsb'_toNat, Nat.shiftRight_zero, Nat.mod_eq_of_lt h,
    Nat.mod_eq_of_lt x.isLt]

theorem ofBool_getLsbD (x : Word) (i : Nat) : BitVec.ofBool (x.getLsbD i) = x.extractLsb' i 1 := by
  ext j hj
  obtain rfl : j = 0 := by omega
  simp

theorem flagPair_getLsbD (x : Word) :
    BitVec.ofBool (x.getLsbD 1) ++ BitVec.ofBool (x.getLsbD 0) = x.extractLsb' 0 2 := by
  rw [ofBool_getLsbD, ofBool_getLsbD]
  exact BitVec.extractLsb'_append_extractLsb'_eq_extractLsb' rfl

/-- A word is made of its fields, given by their values. -/
theorem wordOf_eq {w : CmdWord} {op sel : BitVec 4} {imm : Word} (hop : opField w = op) (hsel : selField w = sel)
    (himm : immField w = imm) : wordOf op sel imm = w := by
  rw [← hop, ← hsel, ← himm, wordOf_fields]

/-- No bit of a defined encoding is ignored (R83). -/
theorem encode_of_decode {w : CmdWord} {i : Instr} (hd : decode w = .ok i) : encode i = w := by
  have hc := decode_cases w
  rw [hd] at hc
  generalize hx : Except.ok i = x at hc
  cases hc with
  | animInit hop | animStep hop | pulseInit hop =>
    obtain ⟨rfl, hsel, himm⟩ := formatZ_eq_ok.mp hx.symm
    exact wordOf_eq hop hsel himm
  | animSetMode hop | rdreg hop =>
    obtain ⟨rfl, hsel, himm⟩ := formatI_eq_ok.mp hx.symm
    exact wordOf_eq hop hsel (setWidth_extractLsb'_of_lt himm).symm
  | tweakSetLfo hop =>
    obtain ⟨rfl, hsel, -⟩ := formatI_eq_ok.mp hx.symm
    exact wordOf_eq hop hsel rfl
  | tweakSetEn hop =>
    obtain ⟨rfl, hsel, himm⟩ := formatI_eq_ok.mp hx.symm
    exact wordOf_eq hop hsel (by rw [flagPair_getLsbD, setWidth_extractLsb'_of_lt himm])
  | pulseSetHardSync hop =>
    obtain ⟨rfl, hsel, himm⟩ := formatI_eq_ok.mp hx.symm
    exact wordOf_eq hop hsel (by rw [ofBool_getLsbD, setWidth_extractLsb'_of_lt himm])
  | pulseSetPeriod hop =>
    injection hx with hi
    subst hi
    exact wordOf_eq hop rfl rfl
  | reserved hop => cases hx

/-! ## The rows of the opcode map (R85) -/

/-- The bits from `n` up are clear exactly when the word is below `2 ^ n`. -/
theorem and_allOnes_shiftLeft_eq_zero_iff (x : Word) (n : Nat) :
    x &&& BitVec.allOnes 32 <<< n = 0 ↔ x.toNat < 2 ^ n := by
  have hshift : (x >>> n <<< n).toNat = x.toNat / 2 ^ n * 2 ^ n := by
    have hle := Nat.div_mul_le_self x.toNat (2 ^ n)
    rw [BitVec.toNat_shiftLeft, BitVec.toNat_ushiftRight, Nat.shiftRight_eq_div_pow, Nat.shiftLeft_eq,
      Nat.mod_eq_of_lt (hle.trans_lt x.isLt)]
  rw [← BitVec.shiftLeft_ushiftRight, ← BitVec.toNat_inj, hshift]
  simp [Nat.div_eq_zero_iff]

/-- A row selects a word exactly when it does so field by field (R80, R85). -/
theorem selects_iff_fields (r : OpcodeRow) (w : CmdWord) :
    r.selects w = true ↔ opField w &&& opField r.mask = opField r.pattern ∧
      selField w &&& selField r.mask = selField r.pattern ∧ immField w &&& immField r.mask = immField r.pattern := by
  simp only [OpcodeRow.selects, beq_iff_eq, opField, selField, immField, ← BitVec.extractLsb'_and]
  refine ⟨fun h => by simp [h], fun ⟨hop, hsel, himm⟩ => ?_⟩
  rw [← wordOf_fields r.pattern]
  exact (wordOf_eq hop hsel himm).symm

/-- Formats Z and I as rows of the map: all of `op` and `sel` are compared, and `imm` from the operand's width up. -/
theorem selects_iff_of_format {r : OpcodeRow} {op : BitVec 4} {n : Nat} (hp : r.pattern = wordOf op 0 0)
    (hm : r.mask = wordOf 0xF 0xF (BitVec.allOnes 32 <<< n)) (w : CmdWord) :
    r.selects w = true ↔ opField w = op ∧ selField w = 0 ∧ (immField w).toNat < 2 ^ n := by
  have hones : (0xF : BitVec 4) = BitVec.allOnes 4 := rfl
  rw [selects_iff_fields, hp, hm]
  simp only [opField_wordOf, selField_wordOf, immField_wordOf, hones, BitVec.and_allOnes,
    and_allOnes_shiftLeft_eq_zero_iff]

/-- Every row compares the whole of `op`, and no two rows the same `op` (R85). -/
theorem opField_of_selects {r : OpcodeRow} (hr : r ∈ opcodeRows) {w : CmdWord} (hs : r.selects w = true) :
    opField w = opField r.pattern := by
  have hmask : ∀ r ∈ opcodeRows, opField r.mask = BitVec.allOnes 4 := by decide
  obtain ⟨hop, -⟩ := (selects_iff_fields r w).mp hs
  rwa [hmask r hr, BitVec.and_allOnes] at hop

theorem opcodeRow_eq_of_opField : ∀ r ∈ opcodeRows, ∀ r' ∈ opcodeRows,
    opField r.pattern = opField r'.pattern → r = r' := by decide

/-- The word of a command selects a row of its mnemonic (R85). -/
theorem exists_row_of_encode (i : Instr) :
    ∃ r ∈ opcodeRows, r.selects (encode i) = true ∧ r.mnemonic = i.mnemonic := by
  cases i with
  | animInit | animStep | pulseInit => decide
  | animSetMode mode => revert mode; decide
  | tweakSetEn castor pollux => revert castor pollux; decide
  | pulseSetHardSync e => revert e; decide
  | rdreg n => revert n; decide
  | tweakSetLfo x =>
    refine ⟨⟨"TWEAK_SET_LFO", 0x4000000000, 0xFF00000000⟩, by decide, ?_, rfl⟩
    refine (selects_iff_of_format (op := 4) (n := 32) rfl rfl _).mpr ?_
    simpa only [encode, opField_wordOf, selField_wordOf, immField_wordOf, true_and] using x.isLt
  | pulseSetPeriod ch period =>
    refine ⟨⟨"PULSE_SET_PERIOD", 0x9000000000, 0xF000000000⟩, by decide, (selects_iff_fields _ _).mpr ?_, rfl⟩
    simp only [encode, opField_wordOf, selField_wordOf, immField_wordOf]
    exact ⟨rfl, BitVec.and_zero, BitVec.and_zero⟩

/-- A word that a row of format Z selects decodes. -/
theorem decode_of_selects_formatZ {r : OpcodeRow} {w : CmdWord} {i : Instr} (op : BitVec 4)
    (hp : r.pattern = wordOf op 0 0) (hm : r.mask = wordOf 0xF 0xF (BitVec.allOnes 32 <<< 0))
    (hd : opField w = op → decode w = formatZ w i) (h : r.selects w = true) : ∃ i, decode w = .ok i := by
  obtain ⟨hop, hsel, himm⟩ := (selects_iff_of_format hp hm w).mp h
  exact ⟨i, (hd hop).trans (formatZ_eq_ok.mpr ⟨rfl, hsel, BitVec.eq_of_toNat_eq (Nat.lt_one_iff.mp himm)⟩)⟩

/-- A word that a row of format I selects decodes. -/
theorem decode_of_selects_formatI {r : OpcodeRow} {w : CmdWord} {i : Instr} (op : BitVec 4) (n : Nat)
    (hp : r.pattern = wordOf op 0 0) (hm : r.mask = wordOf 0xF 0xF (BitVec.allOnes 32 <<< n))
    (hd : opField w = op → decode w = formatI w n i) (h : r.selects w = true) : ∃ i, decode w = .ok i := by
  obtain ⟨hop, hsel, himm⟩ := (selects_iff_of_format hp hm w).mp h
  exact ⟨i, (hd hop).trans (formatI_eq_ok.mpr ⟨rfl, hsel, himm⟩)⟩

/-- A word that some row of the map selects decodes (R86). -/
theorem decode_of_wellFormedWord {w : CmdWord} (h : wellFormedWord w = true) : ∃ i, decode w = .ok i := by
  simp only [wellFormedWord, opcodeRows, List.any_cons, List.any_nil, Bool.or_false, Bool.or_eq_true] at h
  rcases h with h | h | h | h | h | h | h | h | h
  · exact decode_of_selects_formatZ 0x1 rfl rfl (fun hop => by simp only [decode, hop]; rfl) h
  · exact decode_of_selects_formatI 0x2 3 rfl rfl (fun hop => by simp only [decode, hop]; rfl) h
  · exact decode_of_selects_formatZ 0x3 rfl rfl (fun hop => by simp only [decode, hop]; rfl) h
  · exact decode_of_selects_formatI 0x4 32 rfl rfl (fun hop => by simp only [decode, hop]; rfl) h
  · exact decode_of_selects_formatI 0x5 2 rfl rfl (fun hop => by simp only [decode, hop]; rfl) h
  · exact decode_of_selects_formatZ 0x8 rfl rfl (fun hop => by simp only [decode, hop]; rfl) h
  · have hop : opField w = 0x9 := opField_of_selects (by decide) h
    exact ⟨_, by simp only [decode, hop]; rfl⟩
  · exact decode_of_selects_formatI 0xA 1 rfl rfl (fun hop => by simp only [decode, hop]; rfl) h
  · exact decode_of_selects_formatI 0xF 8 rfl rfl (fun hop => by simp only [decode, hop]; rfl) h

/-- Settles O2: the round trip of each command, its operands free. -/
theorem decodeOfEncode : Obligations.DecodeOfEncode
  | .animInit => RoundTrip.animInit
  | .animSetMode mode => RoundTrip.animSetMode mode
  | .animStep => RoundTrip.animStep
  | .tweakSetLfo x => RoundTrip.tweakSetLfo x
  | .tweakSetEn castor pollux => RoundTrip.tweakSetEn castor pollux
  | .pulseInit => RoundTrip.pulseInit
  | .pulseSetPeriod ch period => RoundTrip.pulseSetPeriod ch period
  | .pulseSetHardSync e => RoundTrip.pulseSetHardSync e
  | .rdreg n => RoundTrip.rdreg n

/-- Settles O3: the three fields of a word that decodes are those of the command it decodes to. -/
theorem encodeOfDecode : Obligations.EncodeOfDecode := fun _ _ => encode_of_decode

/-- Settles O4: two rows that select one word compare the same `op`; a word that decodes is the word of its command,
which a row of its mnemonic selects; and the row that selects a word clears what its format must find zero. -/
theorem decodeAgreesWithOpcodeMap : Obligations.DecodeAgreesWithOpcodeMap := by
  refine fun w => ⟨fun r hr r' hr' hs hs' => ?_, fun i hd => ?_, decode_of_wellFormedWord⟩
  · exact opcodeRow_eq_of_opField r hr r' hr' ((opField_of_selects hr hs).symm.trans (opField_of_selects hr' hs'))
  · exact encode_of_decode hd ▸ exists_row_of_encode i

/-- Settles O1: each word is a number, so the decoder evaluates. -/
theorem knownWordsDecode : Obligations.KnownWordsDecode :=
  ⟨rfl, rfl, rfl, rfl, rfl, rfl, rfl, rfl, rfl, rfl, rfl⟩

end Sys2Proof.Laws
end

section
/-! What each agent of the HSC does, register by register: a row of the bring-up, a tick, an acknowledge, the handler;
and with it everything one step can do to one channel (R141, R142, R175, R180 to R183). -/

namespace Sys2Proof.Machine

/-! ## The operations, as equations -/

theorem Hsc.chan_congr {h h' : Hsc} (h0 : h'.ch0 = h.ch0) (h1 : h'.ch1 = h.ch1) (c : Chan) : h'.chan c = h.chan c := by
  cases c with
  | ch0 => exact h0
  | ch1 => exact h1

/-- The enabling row of channel `c`, as `PINIT_STATE` holds it (R141). -/
def enableRowCode : Chan → BitVec 4
  | .ch0 => 9
  | .ch1 => 11

theorem enableRowCode_toNat (c : Chan) : (enableRowCode c).toNat = enableRow c := by cases c <;> rfl

/-- Channel `c` after row `n` of the bring-up: for each register the rows that write it (R141, R142). -/
def Channel.afterRow (b : Board) (n : BitVec 4) (c : Chan) (ch : Channel) : Channel where
  clkEn := if n = 1 then true else ch.clkEn
  enable := if n = 3 then false else if n = enableRowCode c then true else ch.enable
  wave := if n = 3 then false else if n = 6 then true else ch.wave
  presc := if n = 3 then 0 else if n = 5 then b.cfgDiv c else ch.presc
  swrstBusy := if n = 3 then true else ch.swrstBusy
  enableBusy := if n = 3 then false else if n = enableRowCode c then true else ch.enableBusy
  pmux := if n = 8 then true else ch.pmux
  per := if n = 3 then 0 else if n = 7 then b.perPlaceholder else ch.per
  perb := if n = 3 then 0 else if n = 7 then b.perPlaceholder else ch.perb
  cc := if n = 3 then 0 else ch.cc
  ccb := if n = 3 then 0 else ch.ccb
  count := if n = 3 then 0 else ch.count

/-- `afterRow` is what `rowAction` does to a channel, and the three shared registers a row can write stand beside it. -/
theorem rowAction_eq (b : Board) (n : BitVec 4) (h : Hsc) : rowAction b n h =
    { h with
      intflag := if n = 3 then false else h.intflag
      inten := if n = 3 then false else if n = 13 then true else h.inten
      gclkEn := if n = 2 then true else h.gclkEn
      ch0 := h.ch0.afterRow b n .ch0
      ch1 := h.ch1.afterRow b n .ch1 } := by
  obtain ⟨k, hk⟩ := n
  interval_cases k <;> rfl

/-- A count, or the overflow where the count has reached the period (R180, R181). -/
def Channel.tick (ch : Channel) : Channel :=
  if ch.per ≤ ch.count then ch.wrap else { ch with count := ch.count + 1 }

theorem Channel.tick_of_per_le {ch : Channel} (hle : ch.per ≤ ch.count) : ch.tick = ch.wrap := if_pos hle

theorem Channel.tick_of_count_lt {ch : Channel} (hlt : ch.count < ch.per) :
    ch.tick = { ch with count := ch.count + 1 } := if_neg (BitVec.not_le.mpr hlt)

theorem Channel.count_lt_or_per_le (ch : Channel) : ch.count < ch.per ∨ ch.per ≤ ch.count :=
  Nat.lt_or_ge ch.count.toNat ch.per.toNat

theorem Hsc.onChan_congr {h : Hsc} {c : Chan} {f g : Channel → Channel} (hfg : f (h.chan c) = g (h.chan c)) :
    h.onChan c f = h.onChan c g := by
  cases c with
  | ch0 => exact congrArg (fun ch => { h with ch0 := ch }) hfg
  | ch1 => exact congrArg (fun ch => { h with ch1 := ch }) hfg

theorem Hsc.tick_eq (h : Hsc) (c : Chan) : h.tick c =
    { h.onChan c Channel.tick with
      intflag := h.intflag || (c == .ch0 && decide ((h.chan c).per ≤ (h.chan c).count)) } := by
  rcases (h.chan c).count_lt_or_per_le with hlt | hle
  · rw [Hsc.tick_of_count_lt hlt, ← Hsc.onChan_congr (Channel.tick_of_count_lt hlt),
      decide_eq_false (BitVec.not_le.mpr hlt), Bool.and_false, Bool.or_false, ← Hsc.onChan_intflag h Channel.tick c]
  · rw [Hsc.tick_of_per_le hle, Hsc.onChan_congr (Channel.tick_of_per_le hle), decide_eq_true hle, Bool.and_true]
    cases c with
    | ch0 => simp [Hsc.overflow, Hsc.pendOvf0]
    | ch1 => rw [show (Chan.ch1 == Chan.ch0) = false from rfl, Bool.or_false]; rfl

/-- The bit an acknowledge clears (R183). -/
def Channel.acked (k : AckKind) (ch : Channel) : Channel :=
  match k with
  | .swrst => { ch with swrstBusy := false }
  | .enable => { ch with enableBusy := false }

theorem Hsc.acknowledge_eq (h : Hsc) (c : Chan) (k : AckKind) : h.acknowledge c k = h.onChan c (Channel.acked k) := by
  cases k <;> rfl

/-! ## One channel in one step -/

/-- Everything one step can do to channel `c`, and when; with it the row that runs next. -/
inductive ChanCase (s t : State) (c : Chan) : Prop where
  /-- a command that writes no channel, or an agent that serves something else -/
  | same (hp : t.hsc.pinitState = s.hsc.pinitState ∨ t.hsc.pinitState.toNat ≤ 1) (h : t.hsc.chan c = s.hsc.chan c)
  | program (ch : BitVec 4) (p : Word) (hr : s.Runs (.pulseSetPeriod ch p)) (hc : selectedChan ch = some c)
      (hp : t.hsc.pinitState.toNat ≤ 1) (h : t.hsc.chan c = (s.hsc.chan c).program p)
  | row (hr : s.RunsRow s.hsc.pinitState) (hp : t.hsc.pinitState = rowNext s.hsc.pinitState)
      (h : t.hsc.chan c = (s.hsc.chan c).afterRow Config.board s.hsc.pinitState c)
  | count (he : s.nextEvent = .timer c) (hn : s.hsc.timerEnabled c = true)
      (hlt : (s.hsc.chan c).count < (s.hsc.chan c).per) (hp : t.hsc.pinitState = s.hsc.pinitState)
      (h : t.hsc.chan c = { s.hsc.chan c with count := (s.hsc.chan c).count + 1 })
  | wrap (he : s.nextEvent = .timer c) (hn : s.hsc.timerEnabled c = true)
      (hle : (s.hsc.chan c).per ≤ (s.hsc.chan c).count) (hp : t.hsc.pinitState = s.hsc.pinitState)
      (h : t.hsc.chan c = (s.hsc.chan c).wrap)
  | ack (k : AckKind) (he : s.nextEvent = .ack c k) (hp : t.hsc.pinitState = s.hsc.pinitState)
      (h : t.hsc.chan c = (s.hsc.chan c).acked k)
  | restart (hc : c = .ch1) (he : s.nextEvent = .handler) (hn : s.hsc.handlerEnabled = true)
      (hs : s.hsc.hardSync = true) (hp : t.hsc.pinitState = s.hsc.pinitState)
      (h : t.hsc.chan c = (s.hsc.chan c).restart Config.board)
  | reset (he : s.nextEvent = .reset) (hp : t.hsc.pinitState.toNat ≤ 1) (h : t.hsc.chan c = Channel.reset)

/-- What `onChan` of one channel does to another, or to the same. -/
theorem Hsc.onChan_chan (h : Hsc) (c c' : Chan) (f : Channel → Channel) :
    (h.onChan c f).chan c' = if c = c' then f (h.chan c') else h.chan c' := by
  cases c <;> cases c' <;> rfl

theorem step_chan {s t : State} (hstep : step s = .next t) (c : Chan) : ChanCase s t c := by
  cases step_hsc hstep with
  | same h => exact .same (.inl (by rw [h])) (by rw [h])
  | init hr hp h => exact .same (.inr (by rw [h]; exact le_rfl)) (by rw [h]; exact Hsc.chan_congr rfl rfl c)
  | sync e hr hp h => exact .same (.inl (by rw [h])) (by rw [h]; exact Hsc.chan_congr rfl rfl c)
  | reset he h => exact .reset he (by rw [h]; decide) (by rw [h, Hsc.reset_chan])
  | program ch p c' hr hp hc h =>
    have hp' : t.hsc.pinitState.toNat ≤ 1 := by rw [h, Hsc.onChan_pinitState, hp]; decide
    by_cases hcc : c' = c
    · subst hcc
      exact .program ch p hr hc hp' (by rw [h, Hsc.onChan_chan_self])
    · exact .same (.inr hp') (by rw [h, Hsc.onChan_chan, if_neg hcc])
  | row hr h =>
    refine .row hr (by rw [h]) ?_
    rw [h, rowAction_eq]
    cases c <;> rfl
  | tick c' he hn h =>
    rw [Hsc.tick_eq] at h
    have hp : t.hsc.pinitState = s.hsc.pinitState := by rw [h]; exact Hsc.onChan_pinitState ..
    have hchan : t.hsc.chan c = (s.hsc.onChan c' Channel.tick).chan c := by rw [h]; exact Hsc.chan_congr rfl rfl c
    by_cases hcc : c' = c
    · subst hcc
      rw [Hsc.onChan_chan_self] at hchan
      rcases (s.hsc.chan c').count_lt_or_per_le with hlt | hle
      · exact .count he hn hlt hp (hchan.trans (Channel.tick_of_count_lt hlt))
      · exact .wrap he hn hle hp (hchan.trans (Channel.tick_of_per_le hle))
    · exact .same (.inl hp) (by rw [hchan, Hsc.onChan_chan, if_neg hcc])
  | ack c' k he hn h =>
    rw [Hsc.acknowledge_eq] at h
    have hp : t.hsc.pinitState = s.hsc.pinitState := by rw [h]; exact Hsc.onChan_pinitState ..
    by_cases hcc : c' = c
    · subst hcc
      exact .ack k he hp (by rw [h, Hsc.onChan_chan_self])
    · exact .same (.inl hp) (by rw [h, Hsc.onChan_chan, if_neg hcc])
  | handler he hn h =>
    rw [Hsc.takeOverflowInterrupt_eq] at h
    have hp : t.hsc.pinitState = s.hsc.pinitState := by rw [h]
    by_cases hs : c = .ch1 ∧ s.hsc.hardSync = true
    · obtain ⟨rfl, hs⟩ := hs
      exact .restart rfl he hn hs hp (by rw [h, if_pos hs]; rfl)
    · refine .same (.inl hp) ?_
      rw [h]
      cases c with
      | ch0 => rfl
      | ch1 => exact if_neg fun hsync => hs ⟨rfl, hsync⟩

/-! ## The registers that the channels share, in one step -/

/-- Beside the rows of a bring-up and the reset input nothing writes the generator or the mask, and only a command sets
`PINIT_STATE`. -/
theorem step_row_or_kept {s t : State} (hstep : step s = .next t) :
    (s.RunsRow s.hsc.pinitState ∧ t.hsc =
      { rowAction Config.board s.hsc.pinitState s.hsc with pinitState := rowNext s.hsc.pinitState }) ∨
    (s.nextEvent = .reset ∧ t.hsc = Hsc.reset) ∨
    (t.hsc.gclkEn = s.hsc.gclkEn ∧ t.hsc.inten = s.hsc.inten ∧
      (t.hsc.pinitState = s.hsc.pinitState ∨ t.hsc.pinitState.toNat ≤ 1)) := by
  cases step_hsc hstep with
  | row hr h => exact .inl ⟨hr, h⟩
  | reset he h => exact .inr (.inl ⟨he, h⟩)
  | init _ _ h => exact .inr (.inr (by rw [h]; exact ⟨rfl, rfl, .inr le_rfl⟩))
  | same h | sync _ _ _ h => exact .inr (.inr (by rw [h]; exact ⟨rfl, rfl, .inl rfl⟩))
  | program _ _ _ _ _ _ h => exact .inr (.inr (by simp [h]))
  | ack _ _ _ _ h => exact .inr (.inr (by simp [h, Hsc.acknowledge_eq]))
  | tick _ _ _ h => exact .inr (.inr (by simp [h, Hsc.tick_eq]))
  | handler _ _ h => exact .inr (.inr (by simp [h, Hsc.takeOverflowInterrupt_eq]))

end Sys2Proof.Machine
end

section
/-! The progress of a bring-up, kept by every step (R141, R143). -/

namespace Sys2Proof.Machine

/-! ## The rows, in order -/

/-- Row 13 ends the bring-up; a row that is still to run follows the one before it. -/
theorem rowNext_toNat_of_pos : ∀ {n : BitVec 4}, 0 < (rowNext n).toNat → (rowNext n).toNat = n.toNat + 1 := by decide

/-- Past row `m` a register that row `m` writes holds what it wrote. -/
theorem ite_row_eq_of_past {α : Type} {n m : BitVec 4} {v y : α} (hk : m.toNat + 1 ≤ (rowNext n).toNat)
    (hy : m.toNat + 1 ≤ n.toNat → y = v) : (if n = m then v else y) = v := by
  split
  · rfl
  · next hne =>
    have hnext := rowNext_toNat_of_pos (n := n) (by omega)
    have hne : n.toNat ≠ m.toNat := mt BitVec.eq_of_toNat_eq hne
    exact hy (by omega)

/-- Past row 4 the timer-unit reset of row 3 is not what runs. -/
theorem ite_reset_eq_of_past {α : Type} {n : BitVec 4} {v y : α} (hk : 5 ≤ (rowNext n).toNat) :
    (if n = 3 then v else y) = y := by
  refine if_neg ?_
  rintro rfl
  exact absurd hk (by decide)

/-- Row 4 waits for both timer units (R141). -/
theorem swrstBusy_of_rowGuard {h : Hsc} (hg : rowGuard 4 h = true) (c : Chan) : (h.chan c).swrstBusy = false := by
  obtain ⟨h0, h1⟩ : h.ch0.swrstBusy = false ∧ h.ch1.swrstBusy = false := by simpa [rowGuard] using hg
  cases c with
  | ch0 => exact h0
  | ch1 => exact h1

/-- The row after the one that enables a channel waits for it (R141). -/
theorem enableBusy_of_rowGuard {h : Hsc} {n : BitVec 4} {c : Chan} (hn : n.toNat = enableRow c + 1)
    (hg : rowGuard n h = true) : (h.chan c).enableBusy = false := by
  cases c with
  | ch0 =>
    obtain rfl : n = 10 := BitVec.eq_of_toNat_eq hn
    simpa [rowGuard, Hsc.chan] using hg
  | ch1 =>
    obtain rfl : n = 12 := BitVec.eq_of_toNat_eq hn
    simpa [rowGuard, Hsc.chan] using hg

/-! ## What the agents leave in a channel -/

/-- What a tick, an acknowledge and the handler leave of a channel as a bring-up sets it up: they latch the buffers or
not, and clear busy bits or not. -/
structure Channel.Keeps (ch ch' : Channel) : Prop where
  clkEn : ch'.clkEn = ch.clkEn
  enable : ch'.enable = ch.enable
  wave : ch'.wave = ch.wave
  presc : ch'.presc = ch.presc
  pmux : ch'.pmux = ch.pmux
  buffers : ch'.perb = ch.perb ∧ ch'.ccb = ch.ccb
  live : (ch'.per = ch.per ∧ ch'.cc = ch.cc) ∨ (ch'.per = ch.perb ∧ ch'.cc = ch.ccb)
  swrstBusy : ch.swrstBusy = false → ch'.swrstBusy = false
  enableBusy : ch.enableBusy = false → ch'.enableBusy = false

theorem Channel.Keeps.refl (ch : Channel) : ch.Keeps ch :=
  ⟨rfl, rfl, rfl, rfl, rfl, ⟨rfl, rfl⟩, .inl ⟨rfl, rfl⟩, id, id⟩

theorem Channel.keeps_count (ch : Channel) (v : Word) : ch.Keeps { ch with count := v } :=
  ⟨rfl, rfl, rfl, rfl, rfl, ⟨rfl, rfl⟩, .inl ⟨rfl, rfl⟩, id, id⟩

theorem Channel.keeps_wrap (ch : Channel) : ch.Keeps ch.wrap :=
  ⟨rfl, rfl, rfl, rfl, rfl, ⟨rfl, rfl⟩, .inr ⟨rfl, rfl⟩, id, id⟩

theorem Channel.keeps_acked (ch : Channel) (k : AckKind) : ch.Keeps (ch.acked k) := by
  cases k with
  | swrst => exact ⟨rfl, rfl, rfl, rfl, rfl, ⟨rfl, rfl⟩, .inl ⟨rfl, rfl⟩, fun _ => rfl, id⟩
  | enable => exact ⟨rfl, rfl, rfl, rfl, rfl, ⟨rfl, rfl⟩, .inl ⟨rfl, rfl⟩, id, fun _ => rfl⟩

theorem Channel.keeps_restart (b : Board) (ch : Channel) : ch.Keeps (ch.restart b) := by
  unfold Channel.restart
  split
  · exact ch.keeps_wrap
  · exact ch.keeps_count 0

/-! ## One channel -/

section prepared
variable {b : Board} {h h' : Hsc} {c : Chan}

theorem nine_le_enableRow (c : Chan) : 9 ≤ enableRow c := by cases c <;> decide

theorem ne_enableRowCode {n : BitVec 4} (hn : n.toNat ≠ enableRow c) : n ≠ enableRowCode c :=
  fun he => hn ((congrArg BitVec.toNat he).trans (enableRowCode_toNat c))

theorem Hsc.prepared_of_idle (hp : h.pinitState.toNat ≤ 1) : h.Prepared b c where
  clock hk := by omega
  compare hk := by omega
  drained hk := by omega
  presc hk := by omega
  wave hk := by omega
  period hk := by omega
  pin hk := by omega
  idle hk := by have h4 := hk.1; omega
  enabled hk := by have h9 := nine_le_enableRow c; omega
  acknowledged hk := by have h9 := nine_le_enableRow c; omega

theorem Hsc.Prepared.of_keeps (hb : h.Prepared b c) (hp : h'.pinitState = h.pinitState)
    (hk : (h.chan c).Keeps (h'.chan c)) : h'.Prepared b c where
  clock := by rw [hp, hk.clkEn]; exact hb.clock
  compare hn := by
    obtain ⟨hcc, hccb⟩ := hb.compare (hp ▸ hn)
    exact ⟨hk.live.elim (·.2.trans hcc) (·.2.trans hccb), hk.buffers.2.trans hccb⟩
  drained hn := hk.swrstBusy (hb.drained (hp ▸ hn))
  presc := by rw [hp, hk.presc]; exact hb.presc
  wave := by rw [hp, hk.wave]; exact hb.wave
  period hn := by
    obtain ⟨hper, hperb⟩ := hb.period (hp ▸ hn)
    exact ⟨hk.live.elim (·.1.trans hper) (·.1.trans hperb), hk.buffers.1.trans hperb⟩
  pin := by rw [hp, hk.pmux]; exact hb.pin
  idle hn := hk.enableBusy (hb.idle (by rwa [Hsc.Settling, hp] at hn))
  enabled := by rw [hp, hk.enable]; exact hb.enabled
  acknowledged hn := hk.enableBusy (hb.acknowledged (hp ▸ hn))

/-- A row whose guard holds sets up what the next one may rely on. -/
theorem Hsc.Prepared.of_row (hb : h.Prepared b c) (hg : rowGuard h.pinitState h = true)
    (hp : h'.pinitState = rowNext h.pinitState) (hc : h'.chan c = (h.chan c).afterRow b h.pinitState c) :
    h'.Prepared b c where
  clock := by rw [hp, hc]; exact fun hk => ite_row_eq_of_past hk hb.clock
  compare := by
    rw [hp, hc]
    exact fun hk => ⟨ite_row_eq_of_past hk fun hn => (hb.compare hn).1,
      ite_row_eq_of_past hk fun hn => (hb.compare hn).2⟩
  drained := by
    rw [hp, hc]
    intro hk
    have hnext := rowNext_toNat_of_pos (n := h.pinitState) (by omega)
    refine (ite_reset_eq_of_past hk).trans ?_
    by_cases h4 : h.pinitState = 4
    · exact swrstBusy_of_rowGuard (h4 ▸ hg) c
    · exact hb.drained (by bv_omega)
  presc := by
    rw [hp, hc]
    exact fun hk => (ite_reset_eq_of_past (by omega)).trans (ite_row_eq_of_past hk hb.presc)
  wave := by
    rw [hp, hc]
    exact fun hk => (ite_reset_eq_of_past (by omega)).trans (ite_row_eq_of_past hk hb.wave)
  period := by
    rw [hp, hc]
    exact fun hk => ⟨(ite_reset_eq_of_past (by omega)).trans (ite_row_eq_of_past hk fun hn => (hb.period hn).1),
      (ite_reset_eq_of_past (by omega)).trans (ite_row_eq_of_past hk fun hn => (hb.period hn).2)⟩
  pin := by rw [hp, hc]; exact fun hk => ite_row_eq_of_past hk hb.pin
  idle := by
    rw [Hsc.Settling, hp, hc]
    rintro ⟨h4, hle⟩
    have hnext := rowNext_toNat_of_pos (n := h.pinitState) (by omega)
    have hne : h.pinitState ≠ enableRowCode c := ne_enableRowCode (by omega)
    show (if _ then _ else if _ then _ else _) = _
    rw [if_neg hne]
    split
    · rfl
    · exact hb.idle ⟨by bv_omega, by omega⟩
  enabled := by
    rw [hp, hc, ← enableRowCode_toNat]
    have h9 := enableRowCode_toNat c ▸ nine_le_enableRow c
    exact fun hk => (ite_reset_eq_of_past (by omega)).trans
      (ite_row_eq_of_past hk fun hn => hb.enabled (by rw [← enableRowCode_toNat]; exact hn))
  acknowledged := by
    rw [hp, hc]
    intro hk
    have h9 := nine_le_enableRow c
    have hnext := rowNext_toNat_of_pos (n := h.pinitState) (by omega)
    have hne : h.pinitState ≠ enableRowCode c := ne_enableRowCode (by omega)
    refine (ite_reset_eq_of_past (by omega)).trans ((if_neg hne).trans ?_)
    by_cases hwait : h.pinitState.toNat = enableRow c + 1
    · exact enableBusy_of_rowGuard hwait hg
    · exact hb.acknowledged (by omega)

theorem Hsc.bringUp_of_idle (hp : h.pinitState.toNat ≤ 1) : h.BringUp b where
  generator hk := by omega
  masked hk := by omega
  chan _ := Hsc.prepared_of_idle hp

end prepared

/-! ## The whole HSC -/

theorem step_prepared {s t : State} {c : Chan} (hb : s.hsc.Prepared Config.board c) (hstep : step s = .next t) :
    t.hsc.Prepared Config.board c := by
  cases step_chan hstep c with
  | same hp hc =>
    rcases hp with hp | hp
    · exact hb.of_keeps hp (hc ▸ .refl _)
    · exact Hsc.prepared_of_idle hp
  | program _ _ _ _ hp | reset _ hp => exact Hsc.prepared_of_idle hp
  | row hr hp hc =>
    obtain ⟨-, -, -, hg⟩ := hr
    exact hb.of_row hg hp hc
  | count _ _ _ hp hc => exact hb.of_keeps hp (hc ▸ Channel.keeps_count _ _)
  | wrap _ _ _ hp hc => exact hb.of_keeps hp (hc ▸ Channel.keeps_wrap _)
  | ack k _ hp hc => exact hb.of_keeps hp (hc ▸ Channel.keeps_acked _ k)
  | restart _ _ _ _ hp hc => exact hb.of_keeps hp (hc ▸ Channel.keeps_restart _ _)

/-- Settles O36: the generator and the mask by the rows that write them, each channel by what can happen to it. -/
theorem stepKeepsBringUp : Obligations.StepKeepsBringUp := by
  intro s t hb hstep
  have hchan (c : Chan) := step_prepared (hb.chan c) hstep
  rcases step_row_or_kept hstep with ⟨-, h⟩ | ⟨-, h⟩ | ⟨hgen, hmask, hp | hp⟩
  · rw [rowAction_eq] at h
    refine ⟨?_, ?_, hchan⟩
    · rw [h]
      exact fun hk => ite_row_eq_of_past hk hb.generator
    · rw [h]
      intro (hk : 4 ≤ (rowNext s.hsc.pinitState).toNat)
      have h13 : s.hsc.pinitState ≠ 13 := fun he => absurd (he ▸ hk) (by decide)
      exact ite_row_eq_of_past hk fun hn => (if_neg h13).trans (hb.masked hn)
  · exact Hsc.bringUp_of_idle (by rw [h]; decide)
  · exact ⟨by rw [hp, hgen]; exact hb.generator, by rw [hp, hmask]; exact hb.masked, hchan⟩
  · exact Hsc.bringUp_of_idle hp

end Sys2Proof.Machine
end

section
/-! The value invariants, kept by every step (R52). -/

namespace Sys2Proof.Machine

/-! ## The ASE after an `ANIM_STEP` -/

/-- What an `ANIM_STEP` does to the ASE, by the frame it renders (R111 to R113). -/
inductive FrameCase (b : Board) (s t : State) : Prop where
  | rejected (hlt : s.env.now - s.ase.lastUpdate < b.animInterval) (ase : t.ase = s.ase)
  | transition (hle : b.animInterval ≤ s.env.now - s.ase.lastUpdate) (htrans : s.ase.transitioning = true)
      (phase : t.ase.phase = transPhase s.ase.phase s.delta)
      (ends : t.ase.transitioning = decide (t.ase.phase.toInt ≤ 65536))
      (ase : t.ase = { s.ase with
        lastUpdate := s.env.now, phase := t.ase.phase, transitioning := t.ase.transitioning, px := t.ase.px })
      (beyond : ∀ i, b.nPixels ≤ i → t.ase.pxAt i = s.ase.pxAt i)
  | normal (u : State) (hle : b.animInterval ≤ s.env.now - s.ase.lastUpdate) (htrans : s.ase.transitioning = false)
      (h4 : s.ase.mode ≠ .calibration) (h5 : s.ase.mode ≠ .flagTweak) (frame : NormalFrame b s.delta s.based u)
      (ase : t.ase = u.ase)
  | pixels (hle : b.animInterval ≤ s.env.now - s.ase.lastUpdate) (htrans : s.ase.transitioning = false)
      (hmode : s.ase.mode = .calibration ∨ s.ase.mode = .flagTweak)
      (ase : t.ase = { s.ase with lastUpdate := s.env.now, px := t.ase.px })
      (beyond : ∀ i, b.nPixels ≤ i → t.ase.pxAt i = s.ase.pxAt i)

/-- The flush and the response come after the frame and leave the ASE alone (R114). -/
theorem animStepOn_ase_of_le (b : Board) (s : State) (hle : b.animInterval ≤ s.env.now - s.ase.lastUpdate) :
    (animStepOn b s).ase = (renderFrame b s.delta s.based).ase := by
  rw [animStepOn_of_le b s hle]
  rfl

theorem animStepOn_cases (b : Board) (s : State) : FrameCase b s (animStepOn b s) := by
  by_cases hle : b.animInterval ≤ s.env.now - s.ase.lastUpdate
  · have hase := animStepOn_ase_of_le b s hle
    generalize animStepOn b s = t at hase
    cases htrans : s.ase.transitioning with
    | true =>
      have hp := painted_transition b s.delta (s := s.based) htrans
      rw [renderFrame_of_transitioning b _ s.based htrans] at hase
      have hphase : t.ase.phase = transPhase s.ase.phase s.delta := by rw [hase, hp.ase]; rfl
      refine .transition hle htrans hphase ?_ ?_ fun i hi => ?_
      · rw [hphase, hase, hp.ase]; rfl
      · rw [hase, hp.ase]; rfl
      · rw [hase]; exact (hp.px i).trans (if_neg hi.not_gt)
    | false =>
      by_cases h4 : s.ase.mode = .calibration
      · have hp := painted_calibration b s.env.now s.based
        rw [renderFrame_calibration b _ s.based htrans h4] at hase
        exact .pixels hle htrans (.inl h4) (hase ▸ hp.ase) fun i hi => hase ▸ (hp.px i).trans (if_neg hi.not_gt)
      · by_cases h5 : s.ase.mode = .flagTweak
        · rw [renderFrame_flagTweak b _ s.based htrans h5] at hase
          exact .pixels hle htrans (.inr h5) (hase ▸ (pxOnly_tweakRenderer b s.based).ase)
            fun i hi => hase ▸ tweakRenderer_beyond b s.based i hi
        · rw [renderFrame_normal b _ s.based htrans h4 h5] at hase
          exact .normal _ hle htrans h4 h5 (normalFrame_spec b s.delta s.based) hase
  · have hlt : s.delta < b.animInterval := BitVec.not_le.mp hle
    rw [animStepOn, if_pos hlt]
    exact .rejected hlt rfl

/-! ## The ASE -/

/-- A word of 16 bits is not negative as a fix16. -/
theorem toInt_nonneg_of_lt {x : Fix16} (h : x.toNat < 65536) : 0 ≤ x.toInt := by
  rw [BitVec.toInt_eq_toNat_of_lt (by omega)]
  exact Int.natCast_nonneg _

theorem Ase.Sound.animStepOn {b : Board} {s : State} (hs : s.ase.Sound b) : (animStepOn b s).ase.Sound b := by
  have hc := animStepOn_cases b s
  generalize Machine.animStepOn b s = t at hc
  cases hc with
  | rejected _ ase => exact ase ▸ hs
  | transition _ _ phase _ ase beyond =>
    have hphase := phase ▸ transPhase_nonneg s.ase.phase s.delta hs.phase
    refine ⟨?_, hphase, fun i hi => ?_, fun i hi => (beyond i hi).trans (hs.px i hi)⟩
    · rw [ase]; exact hs.hue
    · rw [ase]; exact hs.decay i hi
  | normal u _ _ _ _ frame ase =>
    rw [ase]
    refine ⟨?_, ?_, fun i hi => ?_, fun i hi => ?_⟩
    · rw [frame.hueAcc, normalHueAcc_toNat]; omega
    · exact toInt_nonneg_of_lt (frame.phase ▸ normalPhase_lt _ _)
    · exact ((frame.decay i).trans (if_neg hi.not_gt)).trans (hs.decay i hi)
    · exact ((frame.px i).trans (if_neg hi.not_gt)).trans (hs.px i hi)
  | pixels _ _ _ ase beyond =>
    refine ⟨?_, ?_, fun i hi => ?_, fun i hi => (beyond i hi).trans (hs.px i hi)⟩
    · rw [ase]; exact hs.hue
    · rw [ase]; exact hs.phase
    · rw [ase]; exact hs.decay i hi

theorem Ase.reset_sound (b : Board) : Ase.reset.Sound b :=
  ⟨Nat.zero_le _, le_rfl, fun i _ => Ase.reset_decayAt i, fun i _ => Ase.reset_pxAt i⟩

theorem step_ase_sound {s t : State} (hs : s.ase.Sound Config.board) (hstep : step s = .next t) :
    t.ase.Sound Config.board := by
  cases step_ase hstep with
  | same h => exact h ▸ hs
  | mode _ _ _ h => rw [h]; exact ⟨hs.hue, le_rfl, hs.decay, hs.px⟩
  | init _ h | lfo _ _ h | enables _ _ _ h => rw [h]; exact ⟨hs.hue, hs.phase, hs.decay, hs.px⟩
  | frame s' _ ha _ _ _ _ h => exact h ▸ Ase.Sound.animStepOn (ha ▸ hs)
  | reset _ h => exact h ▸ Ase.reset_sound _

/-! ## The HSC -/

/-- The HSC part of R52, of one channel. -/
structure Hsc.ChanSound (h : Hsc) (c : Chan) : Prop where
  count : (h.chan c).enable = true → (h.chan c).count ≤ (h.chan c).per
  settling : h.Settling c → (h.chan c).enable = false ∧ (h.chan c).count = 0

theorem zero_le_word (x : Word) : 0 ≤ x := by bv_omega

section channel
variable {b : Board} {h h' : Hsc} {c : Chan}

theorem Hsc.not_settling_of_idle (hp : h.pinitState.toNat ≤ 1) : ¬ h.Settling c :=
  fun ⟨h4, _⟩ => by omega

theorem Hsc.settling_congr (hp : h'.pinitState = h.pinitState) : h'.Settling c ↔ h.Settling c := by
  rw [Hsc.Settling, Hsc.Settling, hp]

/-- A move that leaves `ENABLE` alone, and the count within the period. -/
theorem Hsc.ChanSound.of_enable (hs : h.ChanSound c) (hp : h'.pinitState = h.pinitState ∨ h'.pinitState.toNat ≤ 1)
    (henable : (h'.chan c).enable = (h.chan c).enable)
    (hcount : (h'.chan c).count = 0 ∨ ((h'.chan c).count = (h.chan c).count ∧ (h'.chan c).per = (h.chan c).per)) :
    h'.ChanSound c := by
  refine ⟨fun hen => ?_, fun hset => ?_⟩
  · rcases hcount with hzero | ⟨hcount, hper⟩
    · exact hzero ▸ zero_le_word _
    · exact hcount ▸ hper ▸ hs.count (henable ▸ hen)
  · have hsame := hp.resolve_right fun hidle => Hsc.not_settling_of_idle hidle hset
    obtain ⟨hoff, hzero⟩ := hs.settling ((Hsc.settling_congr hsame).mp hset)
    exact ⟨henable.trans hoff, hcount.elim id (·.1.trans hzero)⟩

/-- The channel is disabled from its reset to its enable, so the row that sets the period finds it so (R141). -/
theorem Hsc.ChanSound.disabled_of_row7 (hs : h.ChanSound c) (h7 : h.pinitState = 7) : (h.chan c).enable = false := by
  have h9 := nine_le_enableRow c
  have hset : h.Settling c := by
    rw [Hsc.Settling, h7]
    exact ⟨by decide, le_trans (by decide) h9⟩
  exact (hs.settling hset).left

/-- The enabling row finds the count that the reset has left (R141). -/
theorem Hsc.ChanSound.count_eq_zero_of_enableRow (hs : h.ChanSound c) (hrow : h.pinitState = enableRowCode c) :
    (h.chan c).count = 0 := by
  have h9 := nine_le_enableRow c
  have hset : h.Settling c := by
    rw [Hsc.Settling, hrow, enableRowCode_toNat]
    omega
  exact (hs.settling hset).right

/-- No row leaves an enabled channel with a count above its period. -/
theorem Hsc.ChanSound.count_of_row (hs : h.ChanSound c)
    (hen : ((h.chan c).afterRow b h.pinitState c).enable = true) :
    ((h.chan c).afterRow b h.pinitState c).count ≤ ((h.chan c).afterRow b h.pinitState c).per := by
  by_cases h3 : h.pinitState = 3
  · have hoff : ((h.chan c).afterRow b h.pinitState c).enable = false := if_pos h3
    rw [hoff] at hen
    cases hen
  · simp only [Channel.afterRow, if_neg h3] at hen ⊢
    split at hen
    · next hrow => exact hs.count_eq_zero_of_enableRow hrow ▸ zero_le_word _
    · have h7 : h.pinitState ≠ 7 := fun h7 => absurd hen (hs.disabled_of_row7 h7 ▸ Bool.false_ne_true)
      rw [if_neg h7]
      exact hs.count hen

/-- Row 3 disables the channel at count 0, and no row before the enabling one changes that. -/
theorem Hsc.ChanSound.settling_of_row (hs : h.ChanSound c) (hset : 4 ≤ (rowNext h.pinitState).toNat)
    (hset' : (rowNext h.pinitState).toNat ≤ enableRow c) :
    ((h.chan c).afterRow b h.pinitState c).enable = false ∧ ((h.chan c).afterRow b h.pinitState c).count = 0 := by
  have hnext := rowNext_toNat_of_pos (n := h.pinitState) (by omega)
  by_cases h3 : h.pinitState = 3
  · exact ⟨if_pos h3, if_pos h3⟩
  · obtain ⟨hoff, hzero⟩ := hs.settling ⟨by bv_omega, by omega⟩
    have hrow : h.pinitState ≠ enableRowCode c := ne_enableRowCode (by omega)
    exact ⟨((if_neg h3).trans (if_neg hrow)).trans hoff, (if_neg h3).trans hzero⟩

theorem Hsc.ChanSound.of_row (hs : h.ChanSound c) (hp : h'.pinitState = rowNext h.pinitState)
    (hc : h'.chan c = (h.chan c).afterRow b h.pinitState c) : h'.ChanSound c := by
  refine ⟨?_, ?_⟩
  · rw [hc]; exact hs.count_of_row
  · rw [Hsc.Settling, hp, hc]; exact fun ⟨hset, hset'⟩ => hs.settling_of_row hset hset'

end channel

theorem step_chan_sound {s t : State} {c : Chan} (hs : s.hsc.ChanSound c) (hstep : step s = .next t) :
    t.hsc.ChanSound c := by
  cases step_chan hstep c with
  | same hp h => exact hs.of_enable hp (by rw [h]) (.inr (by rw [h]; exact ⟨rfl, rfl⟩))
  | program _ _ _ _ hp h => exact hs.of_enable (.inr hp) (by rw [h]; rfl) (.inr (by rw [h]; exact ⟨rfl, rfl⟩))
  | row _ hp h => exact hs.of_row hp h
  | count _ hn hlt hp h =>
    obtain ⟨hen, -⟩ := (s.hsc.timerEnabled_iff c).mp hn
    refine ⟨fun _ => ?_, fun hset => ?_⟩
    · rw [h]
      exact (toNat_add_one_of_lt hlt).trans_le hlt
    · rw [(hs.settling ((Hsc.settling_congr hp).mp hset)).1] at hen
      cases hen
  | wrap _ _ _ hp h => exact hs.of_enable (.inl hp) (by rw [h]; rfl) (.inl (by rw [h]; rfl))
  | ack k _ hp h =>
    exact hs.of_enable (.inl hp) (by rw [h]; cases k <;> rfl) (.inr (by rw [h]; cases k <;> exact ⟨rfl, rfl⟩))
  | restart _ _ _ _ hp h =>
    exact hs.of_enable (.inl hp) (by rw [h, Channel.restart_eq]) (.inl (by rw [h, Channel.restart_eq]))
  | reset _ _ h =>
    exact ⟨fun hen => (by rw [h] at hen; cases hen), fun _ => by rw [h]; exact ⟨rfl, rfl⟩⟩

theorem rowNext_le : ∀ {n : BitVec 4}, n.toNat ≤ 13 → (rowNext n).toNat ≤ 13 := by decide

/-- Settles O55: the two sub-blocks apart, and the HSC one channel at a time. -/
theorem stepKeepsSound : Obligations.StepKeepsSound := by
  intro s t hs hstep
  have hchan (c : Chan) : t.hsc.ChanSound c := step_chan_sound ⟨hs.hsc.count c, hs.hsc.settling c⟩ hstep
  refine ⟨step_ase_sound hs.ase hstep, ?_, fun c => (hchan c).count, fun c => (hchan c).settling⟩
  rcases step_row_or_kept hstep with ⟨-, h⟩ | ⟨-, h⟩ | ⟨-, -, hp | hp⟩
  · exact h ▸ rowNext_le hs.hsc.pinit
  · exact h ▸ Nat.zero_le _
  · exact hp ▸ hs.hsc.pinit
  · exact hp.trans (by decide)

end Sys2Proof.Machine
end

section
/-! The bound on the handler's latency (R176, R179; decision D21). -/

namespace Sys2Proof.Machine

/-! ## The counts of channel 1 since the overflow (log 12) -/

/-- No command counts. -/
theorem exec_waited {i : Instr} {s t : State} (hx : exec i s = .next t) : t.env.waited = s.env.waited := by
  cases i with
  | animSetMode m => injection hx with hx; subst hx; split <;> rfl
  | pulseSetPeriod ch p => injection hx with hx; subst hx; split <;> rfl
  | animStep => injection hx with hx; subst hx; rw [(animOnly_animStepOn _ s).env]
  | animInit | tweakSetLfo _ | tweakSetEn _ _ | pulseInit | pulseSetHardSync _ | rdreg _ =>
    injection hx with hx; subst hx; rfl

@[simp] theorem rowRespond_waited (n : BitVec 4) (s : State) : (rowRespond n s).env.waited = s.env.waited := by
  unfold rowRespond; split <;> rfl

/-- What the agent that moves does has no part in the count. -/
theorem step_waited {s t : State} (hstep : step s = .next t) : t.env.waited = s.waitedAfter s.nextEvent := by
  rw [← s.afterEvent_waited]
  cases step_cases hstep with
  | command _ _ _ _ _ _ _ hx => exact (exec_waited hx :)
  | row _ _ _ ht => rw [ht, rowRespond_waited]
  | reserved _ _ _ _ _ _ _ ht | tick _ _ _ ht | ack _ _ _ _ ht | handler _ _ ht | reset _ ht | now _ _ ht
  | issue _ _ ht | idle _ ht => subst ht; rfl

theorem State.waitedAfter_of_pending {s : State} (e : Event) (h : s.hsc.intflag = true) :
    s.waitedAfter e = s.env.waited + if e = .timer .ch1 ∧ s.hsc.timerEnabled .ch1 = true then 1 else 0 := by
  rw [State.waitedAfter, if_pos h]
  split <;> rfl

/-- The count stays within the bound: one that would pass it does not come next. -/
theorem State.waitedAfter_le {s : State} (hs : s.Prompt Config.board) {n : Nat}
    (hn : Config.board.irqLatencyMax = some n) : s.waitedAfter s.nextEvent ≤ n := by
  cases hflag : s.hsc.intflag with
  | false => rw [s.waitedAfter_of_idle _ hflag]; exact Nat.zero_le n
  | true =>
    have hle := hs hflag n hn
    rw [State.waitedAfter_of_pending _ hflag]
    split
    · next hcount =>
      obtain ⟨he, hen⟩ := hcount
      have hlt : s.env.waited < n := by
        by_contra hge
        have hover := (s.overdue_iff Config.board).mpr ⟨hflag, n, hn, not_lt.mp hge⟩
        rw [s.not_overdue_of_nextEvent he hen] at hover
        cases hover
      exact hlt
    · exact hle

/-- Where the bound is used up, the one move it displaces gives way (R179). -/
theorem State.arbitrate_of_overdue {b : Board} {s : State} {n : Nat} (hn : b.irqLatencyMax = some n)
    (hen : s.hsc.timerEnabled .ch1 = true) (hflag : s.hsc.intflag = true) (hle : n ≤ s.env.waited) :
    s.arbitrate b (.timer .ch1) = .handler := by
  have hover := (s.overdue_iff b).mpr ⟨hflag, n, hn, hle⟩
  simp only [State.arbitrate, hen, hover, Bool.and_self, if_true]

/-- Everywhere else the choice is free (R176). -/
theorem State.arbitrate_of_free {b : Board} {s : State} {e : Event}
    (hfree : b.irqLatencyMax = none ∨ e ≠ .timer .ch1 ∨ s.hsc.timerEnabled .ch1 = false ∨ s.hsc.intflag = false ∨
      ∃ n, b.irqLatencyMax = some n ∧ s.env.waited < n) : s.arbitrate b e = e := by
  rcases s.arbitrate_cases b e with ⟨he, -⟩ | ⟨-, he, hen, hover⟩
  · exact he
  · obtain ⟨hflag, n, hn, hle⟩ := (s.overdue_iff b).mp hover
    rcases hfree with hnone | hne | hoff | hidle | ⟨m, hm, hlt⟩
    · rw [hnone] at hn; cases hn
    · exact absurd he hne
    · rw [hoff] at hen; cases hen
    · rw [hidle] at hflag; cases hflag
    · rw [hm] at hn
      injection hn with hn
      omega

/-- Settles O37: the arbitration by its two cases, the count by what the move is, and the bound by both. -/
theorem handlerLatencyIsBounded : Obligations.HandlerLatencyIsBounded := by
  refine ⟨fun b s e => ⟨fun n hn he hen hflag hle => ?_, State.arbitrate_of_free⟩,
    fun s => ⟨rfl, fun hidle => ?_, fun hflag => ?_⟩, fun s t hs hstep _ n hn => ?_⟩
  · exact he ▸ State.arbitrate_of_overdue hn hen hflag hle
  · rw [s.afterEvent_waited, s.waitedAfter_of_idle _ hidle]
  · rw [s.afterEvent_waited, State.waitedAfter_of_pending _ hflag]
  · exact step_waited hstep ▸ State.waitedAfter_le hs hn

end Sys2Proof.Machine
end

section
/-! Who writes each register of the HSC (R22, R36, R46, R48, R72, R174; decisions D18, D20, D22). -/

namespace Sys2Proof.Machine

/-! ## The registers that the channels share -/

/-- While a row runs, which one is a question of `PINIT_STATE` alone. -/
theorem State.RunsRow.iff_eq {s : State} (hr : s.RunsRow s.hsc.pinitState) (n : BitVec 4) :
    s.RunsRow n ↔ s.hsc.pinitState = n :=
  ⟨fun ⟨_, hn, _⟩ => hn, fun hn => hn ▸ hr⟩

section shared
variable {s t : State}

theorem step_hardSync (hstep : step s = .next t) (hne : s.nextEvent ≠ .reset) :
    t.hsc.hardSync = s.hsc.hardSync ∨ ∃ e, s.Runs (.pulseSetHardSync e) := by
  cases step_hsc hstep with
  | sync e hr => exact .inr ⟨e, hr⟩
  | reset he => exact absurd he hne
  | same h | init _ _ h => exact .inl (by rw [h])
  | program _ _ _ _ _ _ h | ack _ _ _ _ h => exact .inl (by simp [h, Hsc.acknowledge_eq])
  | row _ h => exact .inl (by rw [h]; exact rowAction_hardSync _ _ _)
  | tick _ _ _ h => exact .inl (by rw [h, Hsc.tick_eq]; exact Hsc.onChan_hardSync ..)
  | handler _ _ h => exact .inl (by rw [h, takeOverflowInterrupt_hardSync])

theorem step_pinitState (hstep : step s = .next t) (hne : s.nextEvent ≠ .reset) :
    t.hsc.pinitState = s.hsc.pinitState ∨ s.Runs .pulseInit ∨ ∃ n, s.RunsRow n := by
  cases step_hsc hstep with
  | init hr => exact .inr (.inl hr)
  | row hr => exact .inr (.inr ⟨_, hr⟩)
  | reset he => exact absurd he hne
  | same h | sync _ _ _ h => exact .inl (by rw [h])
  | program _ _ _ _ _ _ h | ack _ _ _ _ h => exact .inl (by simp [h, Hsc.acknowledge_eq])
  | tick _ _ _ h => exact .inl (by rw [h, Hsc.tick_eq]; exact Hsc.onChan_pinitState ..)
  | handler _ _ h => exact .inl (by rw [h, Hsc.takeOverflowInterrupt_eq])

/-- The flag is set by an overflow of channel 0, enabled or not in `INTEN`, and cleared by the handler and by row 3. -/
theorem step_intflag (hstep : step s = .next t) (hne : s.nextEvent ≠ .reset) :
    t.hsc.intflag = s.hsc.intflag ∨
    (t.hsc.intflag = true ∧ s.nextEvent = .timer .ch0 ∧ s.hsc.timerEnabled .ch0 = true ∧
      s.hsc.ch0.per ≤ s.hsc.ch0.count) ∨
    (t.hsc.intflag = false ∧ ((s.nextEvent = .handler ∧ s.hsc.inten = true) ∨ s.RunsRow 3)) := by
  cases step_hsc hstep with
  | handler he hn h =>
    obtain ⟨-, hen⟩ := s.hsc.handlerEnabled_iff.mp hn
    exact .inr (.inr ⟨by rw [h, Hsc.takeOverflowInterrupt_eq], .inl ⟨he, hen⟩⟩)
  | row hr h =>
    rw [hr.iff_eq, h, rowAction_eq]
    by_cases h3 : s.hsc.pinitState = 3
    · exact .inr (.inr ⟨if_pos h3, .inr h3⟩)
    · exact .inl (if_neg h3)
  | tick c he hn h =>
    have hflag : t.hsc.intflag =
        (s.hsc.intflag || (c == .ch0 && decide ((s.hsc.chan c).per ≤ (s.hsc.chan c).count))) := by rw [h, Hsc.tick_eq]
    by_cases hover : c = .ch0 ∧ (s.hsc.chan c).per ≤ (s.hsc.chan c).count
    · obtain ⟨rfl, hle⟩ := hover
      exact .inr (.inl ⟨by simp [hflag, hle], he, hn, hle⟩)
    · exact .inl (by simpa [hflag] using fun hc hle => absurd ⟨hc, hle⟩ hover)
  | reset he => exact absurd he hne
  | same h | init _ _ h | sync _ _ _ h => exact .inl (by rw [h])
  | program _ _ _ _ _ _ h | ack _ _ _ _ h => exact .inl (by simp [h, Hsc.acknowledge_eq])

theorem step_inten (hstep : step s = .next t) (hne : s.nextEvent ≠ .reset) :
    t.hsc.inten = s.hsc.inten ∨ s.RunsRow 3 ∨ s.RunsRow 13 := by
  rcases step_row_or_kept hstep with ⟨hr, h⟩ | ⟨he, -⟩ | ⟨-, hmask, -⟩
  · rw [hr.iff_eq, hr.iff_eq, h, rowAction_eq]
    by_cases h3 : s.hsc.pinitState = 3
    · exact .inr (.inl h3)
    · by_cases h13 : s.hsc.pinitState = 13
      · exact .inr (.inr h13)
      · exact .inl ((if_neg h3).trans (if_neg h13))
  · exact absurd he hne
  · exact .inl hmask

theorem step_gclkEn (hstep : step s = .next t) (hne : s.nextEvent ≠ .reset) :
    t.hsc.gclkEn = s.hsc.gclkEn ∨ s.RunsRow 2 := by
  rcases step_row_or_kept hstep with ⟨hr, h⟩ | ⟨he, -⟩ | ⟨hgen, -⟩
  · rw [hr.iff_eq, h, rowAction_eq]
    exact (em _).symm.imp (fun hn => if_neg hn) id
  · exact absurd he hne
  · exact .inl hgen

/-! ## The registers of one channel -/

/-- Beside the rows of a bring-up and the reset input nothing writes what a bring-up sets up once. -/
theorem step_row_or_setup_kept (hstep : step s = .next t) (hne : s.nextEvent ≠ .reset) (c : Chan) :
    (s.RunsRow s.hsc.pinitState ∧ t.hsc.chan c = (s.hsc.chan c).afterRow Config.board s.hsc.pinitState c) ∨
    ((t.hsc.chan c).clkEn = (s.hsc.chan c).clkEn ∧ (t.hsc.chan c).ctrl = (s.hsc.chan c).ctrl ∧
      (t.hsc.chan c).pmux = (s.hsc.chan c).pmux) := by
  cases step_chan hstep c with
  | row hr _ h => exact .inl ⟨hr, h⟩
  | reset he => exact absurd he hne
  | same _ h | program _ _ _ _ _ h | count _ _ _ _ h | wrap _ _ _ _ h => exact .inr (h ▸ ⟨rfl, rfl, rfl⟩)
  | ack k _ _ h => exact .inr (by cases k <;> exact h ▸ ⟨rfl, rfl, rfl⟩)
  | restart _ _ _ _ _ h => exact .inr (by rw [h, Channel.restart_eq]; exact ⟨rfl, rfl, rfl⟩)

theorem step_clkEn (hstep : step s = .next t) (hne : s.nextEvent ≠ .reset) (c : Chan) :
    (t.hsc.chan c).clkEn = (s.hsc.chan c).clkEn ∨ s.RunsRow 1 := by
  rcases step_row_or_setup_kept hstep hne c with ⟨hr, h⟩ | ⟨hclk, -⟩
  · rw [hr.iff_eq, h]
    exact (em _).symm.imp (fun hn => if_neg hn) id
  · exact .inl hclk

theorem step_clkctrl (hstep : step s = .next t) (hne : s.nextEvent ≠ .reset) :
    t.hsc.clkctrl = s.hsc.clkctrl ∨ s.RunsRow 1 ∨ s.RunsRow 2 := by
  by_contra! hnone
  obtain ⟨hclkctrl, hrow1, hrow2⟩ := hnone
  have hg : t.hsc.gclkEn = s.hsc.gclkEn := (step_gclkEn hstep hne).resolve_right hrow2
  have h0 : t.hsc.ch0.clkEn = s.hsc.ch0.clkEn := (step_clkEn hstep hne .ch0).resolve_right hrow1
  have h1 : t.hsc.ch1.clkEn = s.hsc.ch1.clkEn := (step_clkEn hstep hne .ch1).resolve_right hrow1
  exact hclkctrl (by rw [Hsc.clkctrl, hg, h0, h1, Hsc.clkctrl])

theorem step_pmux (hstep : step s = .next t) (hne : s.nextEvent ≠ .reset) (c : Chan) :
    (t.hsc.chan c).pmux = (s.hsc.chan c).pmux ∨ s.RunsRow 8 := by
  rcases step_row_or_setup_kept hstep hne c with ⟨hr, h⟩ | ⟨-, -, hpin⟩
  · rw [hr.iff_eq, h]
    exact (em _).symm.imp (fun hn => if_neg hn) id
  · exact .inl hpin

/-- A row that is not the enabling one of either channel. -/
theorem ne_enableRowCode_of_rows {n : BitVec 4} {c : Chan} (h0 : c = .ch0 → n ≠ 9) (h1 : c = .ch1 → n ≠ 11) :
    n ≠ enableRowCode c := by
  cases c with
  | ch0 => exact h0 rfl
  | ch1 => exact h1 rfl

theorem step_ctrl (hstep : step s = .next t) (hne : s.nextEvent ≠ .reset) (c : Chan) :
    (t.hsc.chan c).ctrl = (s.hsc.chan c).ctrl ∨
    s.RunsRow 3 ∨ s.RunsRow 5 ∨ s.RunsRow 6 ∨ (c = .ch0 ∧ s.RunsRow 9) ∨ (c = .ch1 ∧ s.RunsRow 11) := by
  rcases step_row_or_setup_kept hstep hne c with ⟨hr, h⟩ | ⟨-, hctrl, -⟩
  · simp only [hr.iff_eq, h]
    by_contra! hnone
    obtain ⟨hctrl, h3, h5, h6, h9, h11⟩ := hnone
    have hen := ne_enableRowCode_of_rows h9 h11
    exact hctrl (by simp only [Channel.ctrl, Channel.afterRow, if_neg h3, if_neg h5, if_neg h6, if_neg hen])
  · exact .inl hctrl

theorem step_syncbusy (hstep : step s = .next t) (hne : s.nextEvent ≠ .reset) (c : Chan) :
    (t.hsc.chan c).syncbusy = (s.hsc.chan c).syncbusy ∨
    s.RunsRow 3 ∨ (c = .ch0 ∧ s.RunsRow 9) ∨ (c = .ch1 ∧ s.RunsRow 11) ∨ ∃ k, s.nextEvent = .ack c k := by
  cases step_chan hstep c with
  | ack k he => exact .inr (.inr (.inr (.inr ⟨k, he⟩)))
  | row hr _ h =>
    simp only [hr.iff_eq, h]
    by_contra! hnone
    obtain ⟨hbusy, h3, h9, h11, -⟩ := hnone
    have hen := ne_enableRowCode_of_rows h9 h11
    exact hbusy (by simp only [Channel.syncbusy, Channel.afterRow, if_neg h3, if_neg hen])
  | reset he => exact absurd he hne
  | same _ h | program _ _ _ _ _ h | count _ _ _ _ h | wrap _ _ _ _ h => exact .inl (h ▸ rfl)
  | restart _ _ _ _ _ h => exact .inl (by rw [h, Channel.restart_eq]; rfl)

/-- A row that writes the period or the compare value, live or buffered, is row 3 or row 7. -/
theorem Channel.afterRow_period {b : Board} {n : BitVec 4} {c : Chan} (ch : Channel) (h3 : n ≠ 3) (h7 : n ≠ 7) :
    ((ch.afterRow b n c).perb = ch.perb ∧ (ch.afterRow b n c).ccb = ch.ccb) ∧
      (ch.afterRow b n c).per = ch.per ∧ (ch.afterRow b n c).cc = ch.cc :=
  ⟨⟨(if_neg h3).trans (if_neg h7), if_neg h3⟩, (if_neg h3).trans (if_neg h7), if_neg h3⟩

theorem step_buffers (hstep : step s = .next t) (hne : s.nextEvent ≠ .reset) (c : Chan) :
    ((t.hsc.chan c).perb = (s.hsc.chan c).perb ∧ (t.hsc.chan c).ccb = (s.hsc.chan c).ccb) ∨
    s.RunsRow 3 ∨ s.RunsRow 7 ∨ ∃ ch period, selectedChan ch = some c ∧ s.Runs (.pulseSetPeriod ch period) := by
  cases step_chan hstep c with
  | program ch p hr hc => exact .inr (.inr (.inr ⟨ch, p, hc, hr⟩))
  | row hr _ h =>
    simp only [hr.iff_eq, h]
    by_contra! hnone
    obtain ⟨hbuf, h3, h7, -⟩ := hnone
    obtain ⟨⟨hperb, hccb⟩, -⟩ := Channel.afterRow_period (b := Config.board) (c := c) (s.hsc.chan c) h3 h7
    exact hbuf hperb hccb
  | reset he => exact absurd he hne
  | same _ h | count _ _ _ _ h | wrap _ _ _ _ h => exact .inl (h ▸ ⟨rfl, rfl⟩)
  | ack k _ _ h => exact .inl (by rw [h]; exact ((s.hsc.chan c).keeps_acked k).buffers)
  | restart _ _ _ _ _ h => exact .inl (by rw [h]; exact ((s.hsc.chan c).keeps_restart _).buffers)

theorem step_count (hstep : step s = .next t) (hne : s.nextEvent ≠ .reset) (c : Chan) :
    (t.hsc.chan c).count = (s.hsc.chan c).count ∨
    (s.nextEvent = .timer c ∧ s.hsc.timerEnabled c = true) ∨
    (c = .ch1 ∧ s.nextEvent = .handler ∧ s.hsc.handlerEnabled = true ∧ s.hsc.hardSync = true ∧
      (t.hsc.chan c).count = 0) ∨ s.RunsRow 3 := by
  cases step_chan hstep c with
  | count he hn | wrap he hn => exact .inr (.inl ⟨he, hn⟩)
  | restart hc he hn hs _ h => exact .inr (.inr (.inl ⟨hc, he, hn, hs, by rw [h, Channel.restart_eq]⟩))
  | row hr _ h =>
    rw [hr.iff_eq, h]
    by_cases h3 : s.hsc.pinitState = 3
    · exact .inr (.inr (.inr h3))
    · exact .inl (if_neg h3)
  | reset he => exact absurd he hne
  | same _ h | program _ _ _ _ _ h => exact .inl (h ▸ rfl)
  | ack k _ _ h => exact .inl (by cases k <;> exact h ▸ rfl)

/-- The live registers change at a latch point only (R72). -/
theorem step_live (hstep : step s = .next t) (hne : s.nextEvent ≠ .reset) (c : Chan) :
    ((t.hsc.chan c).per = (s.hsc.chan c).per ∧ (t.hsc.chan c).cc = (s.hsc.chan c).cc) ∨
    (s.nextEvent = .timer c ∧ s.hsc.timerEnabled c = true ∧ (s.hsc.chan c).per ≤ (s.hsc.chan c).count) ∨
    (c = .ch1 ∧ s.nextEvent = .handler ∧ s.hsc.handlerEnabled = true ∧ s.hsc.hardSync = true ∧
      Config.board.retriggerUpdates = true) ∨ s.RunsRow 3 ∨ s.RunsRow 7 := by
  cases step_chan hstep c with
  | wrap he hn hle => exact .inr (.inl ⟨he, hn, hle⟩)
  | restart hc he hn hs _ h =>
    cases hb : Config.board.retriggerUpdates with
    | true => exact .inr (.inr (.inl ⟨hc, he, hn, hs, rfl⟩))
    | false => exact .inl (by rw [h, Channel.restart_eq, hb]; exact ⟨rfl, rfl⟩)
  | row hr _ h =>
    simp only [hr.iff_eq, h]
    by_contra! hnone
    obtain ⟨hlive, -, -, h3, h7⟩ := hnone
    obtain ⟨-, hper, hcc⟩ := Channel.afterRow_period (b := Config.board) (c := c) (s.hsc.chan c) h3 h7
    exact hlive hper hcc
  | reset he => exact absurd he hne
  | same _ h | program _ _ _ _ _ h | count _ _ _ _ h => exact .inl (h ▸ ⟨rfl, rfl⟩)
  | ack k _ _ h => exact .inl (by cases k <;> exact h ▸ ⟨rfl, rfl⟩)

end shared

/-! ## The statements -/

/-- Settles O59: each register by the lemma about it. -/
theorem hscRegisterWriters : Obligations.HscRegisterWriters := fun _ _ hstep hne =>
  ⟨step_hardSync hstep hne, step_pinitState hstep hne, step_intflag hstep hne, step_inten hstep hne,
    step_clkctrl hstep hne, fun c => ⟨step_ctrl hstep hne c, step_pmux hstep hne c, step_syncbusy hstep hne c,
      step_buffers hstep hne c, step_count hstep hne c, step_live hstep hne c⟩⟩

/-- Settles O49: of what changes the flag, only the handler and row 3 clear it. -/
theorem pendingFlagIsKept : Obligations.PendingFlagIsKept := by
  intro s t hstep hset hclear
  by_cases he : s.nextEvent = .reset
  · exact .inr (.inr he)
  · rcases step_intflag hstep he with hsame | ⟨hover, -⟩ | ⟨-, hhandler | hrow⟩
    · rw [hclear, hset] at hsame; cases hsame
    · rw [hclear] at hover; cases hover
    · exact .inl hhandler
    · exact .inr (.inl hrow)

/-- Settles O57: the latch points, and at an overflow the count that shows it. -/
theorem liveRegistersChangeOnlyAtLatch : Obligations.LiveRegistersChangeOnlyAtLatch := by
  intro s t c hstep hchange
  by_cases hreset : s.nextEvent = .reset
  · exact .inr (.inr (.inr (.inr hreset)))
  · rcases step_live hstep hreset c with ⟨hper, hcc⟩ | ⟨he, hn, hle⟩ | ⟨hc, he, -, hs, hb⟩ | h3 | h7
    · exact absurd hchange (not_or.mpr ⟨not_not_intro hper, not_not_intro hcc⟩)
    · rw [step_of_timerEnabled he hn, Hsc.tick_of_per_le hle] at hstep
      injection hstep with ht
      refine .inl ⟨he, hle, ?_⟩
      subst ht
      cases c <;> rfl
    · exact .inr (.inl ⟨he, hc, hs, hb⟩)
    · exact .inr (.inr (.inl h3))
    · exact .inr (.inr (.inr (.inl h7)))

/-- Settles O56: every other writer of the four registers writes both of a pair alike, or latches one from the other. -/
theorem buffersStayEqualUntilProgrammed : Obligations.BuffersStayEqualUntilProgrammed := by
  intro s t c hstep hper hcc
  cases step_chan hstep c with
  | program ch p hr hc => exact .inr ⟨ch, p, hc, hr⟩
  | same _ h | count _ _ _ _ h => exact .inl (h ▸ ⟨hper, hcc⟩)
  | wrap _ _ _ _ h | reset _ _ h => exact .inl (h ▸ ⟨rfl, rfl⟩)
  | ack k _ _ h => exact .inl (by cases k <;> exact h ▸ ⟨hper, hcc⟩)
  | row _ _ h => exact .inl (by rw [h]; simp only [Channel.afterRow, hper, hcc, and_self])
  | restart _ _ _ _ _ h => exact .inl (by rw [h, Channel.restart_eq]; simp only [hper, hcc, ite_self, and_self])

end Sys2Proof.Machine
end

section
/-! The rows of the bring-up, each as the whole next state, and what they add up to (R140 to R143, R146; decision
D22). -/

namespace Sys2Proof.Machine

/-! ## One row -/

theorem step_of_rowGuard {s : State} {n : BitVec 4} (he : s.nextEvent = .host) (hp : s.hsc.pinitState = n) (h0 : n ≠ 0)
    (hg : rowGuard n s.hsc = true) :
    step s = .next (rowRespond n
      { s.afterEvent with hsc := { rowAction Config.board n s.hsc with pinitState := rowNext n } }) := by
  subst hp
  have hclosed : ¬ s.afterEvent.hsc.portOpen = true := by rwa [portOpen_iff, State.afterEvent_hsc]
  rw [step_of_host he, hostMove, if_neg hclosed]
  simp only [microStep, State.afterEvent_hsc, if_pos hg]

theorem step_of_rowWaits {s : State} {n : BitVec 4} (he : s.nextEvent = .host) (hp : s.hsc.pinitState = n) (h0 : n ≠ 0)
    (hg : rowGuard n s.hsc = false) : step s = .next s.afterEvent := by
  subst hp
  have hclosed : ¬ s.afterEvent.hsc.portOpen = true := by rwa [portOpen_iff, State.afterEvent_hsc]
  rw [step_of_host he, hostMove, if_neg hclosed]
  simp only [microStep, State.afterEvent_hsc, hg, Bool.false_eq_true, if_false]

/-- Settles O31: `PULSE_INIT` is defined to leave this state, whose port is closed. -/
theorem pulseInitStartsBringUp : Obligations.PulseInitStartsBringUp :=
  ⟨by decide, fun _ => ⟨_, rfl, rfl, rfl⟩⟩

/-- Settles O32: rows 1 to 3 do not wait. -/
theorem bringUpRowsClocksAndReset : Obligations.BringUpRowsClocksAndReset := fun _ he =>
  ⟨fun hp => step_of_rowGuard he hp (by decide) rfl, fun hp => step_of_rowGuard he hp (by decide) rfl,
    fun hp => step_of_rowGuard he hp (by decide) rfl⟩

/-- Settles O33: rows 5 to 8 do not wait. -/
theorem bringUpRowsConfigure : Obligations.BringUpRowsConfigure := fun _ he =>
  ⟨fun hp => step_of_rowGuard he hp (by decide) rfl, fun hp => step_of_rowGuard he hp (by decide) rfl,
    fun hp => step_of_rowGuard he hp (by decide) rfl, fun hp => step_of_rowGuard he hp (by decide) rfl⟩

/-- Settles O34: rows 9, 11 and 13 do not wait. -/
theorem bringUpRowsEnable : Obligations.BringUpRowsEnable := fun _ he =>
  ⟨fun hp => step_of_rowGuard he hp (by decide) rfl, fun hp => step_of_rowGuard he hp (by decide) rfl,
    fun hp => step_of_rowGuard he hp (by decide) rfl⟩

/-- A row that only waits for its guard (R141, R146). -/
theorem step_of_waitRow {s : State} {n : BitVec 4} {waits : Bool} (he : s.nextEvent = .host)
    (hp : s.hsc.pinitState = n) (h0 : n ≠ 0) (h13 : n ≠ 13) (hg : rowGuard n s.hsc = !waits)
    (ha : rowAction Config.board n s.hsc = s.hsc) :
    step s =
      .next (if waits then s.afterEvent else { s.afterEvent with hsc := { s.hsc with pinitState := n + 1 } }) := by
  cases waits with
  | true => exact step_of_rowWaits he hp h0 hg
  | false => rw [step_of_rowGuard he hp h0 hg, ha, rowRespond, if_neg h13, rowNext, if_neg h13]; rfl

/-- Settles O35: rows 4, 10 and 12 have no action of their own. -/
theorem bringUpRowsWait : Obligations.BringUpRowsWait := by
  rintro s he n waits (⟨rfl, rfl⟩ | ⟨rfl, rfl⟩ | ⟨rfl, rfl⟩) hp
  · exact step_of_waitRow he hp (by decide) (by decide) (Bool.not_or _ _).symm rfl
  · exact step_of_waitRow he hp (by decide) (by decide) rfl rfl
  · exact step_of_waitRow he hp (by decide) (by decide) rfl rfl

/-! ## The whole bring-up -/

/-- Without a compare value the output is low (R47). -/
theorem Channel.pwmOut_of_cc_eq_zero {ch : Channel} (hcc : ch.cc = 0) : ch.pwmOut = false := by
  simp [Channel.pwmOut, hcc]

theorem Channel.ctrl_of_fields {ch : Channel} (hwave : ch.wave = true) (henable : ch.enable = true) :
    ch.ctrl = ch.presc ++ 0b11#2 := by
  rw [Channel.ctrl, hwave, henable, BitVec.append_assoc]
  rfl

theorem Channel.syncbusy_of_fields {ch : Channel} (hen : ch.enableBusy = false) (hsw : ch.swrstBusy = false) :
    ch.syncbusy = 0 := by
  rw [Channel.syncbusy, hen, hsw]
  rfl

/-- A channel at row 13: everything that the rows before it have set up. -/
theorem Hsc.BringUp.chan_of_last_row {b : Board} {h : Hsc} (hb : h.BringUp b) (hs : h.Sound) (hp : h.pinitState = 13)
    (c : Chan) :
    (h.chan c).ctrl = b.cfgDiv c ++ 0b11#2 ∧ (h.chan c).syncbusy = 0 ∧ (h.chan c).per = b.perPlaceholder ∧
      (h.chan c).perb = b.perPlaceholder ∧ (h.chan c).cc = 0 ∧ (h.chan c).ccb = 0 ∧ (h.chan c).pmux = true ∧
      (h.chan c).pwmOut = false ∧ (h.chan c).count ≤ b.perPlaceholder := by
  have hle {k : Nat} (hk : k ≤ 13) : k ≤ h.pinitState.toNat := hp ▸ hk
  have hrow : enableRow c ≤ 11 := by cases c <;> decide
  have hc := hb.chan c
  obtain ⟨hcc, hccb⟩ := hc.compare (hle (by decide))
  obtain ⟨hper, hperb⟩ := hc.period (hle (by decide))
  have henable := hc.enabled (hle (by omega))
  have hbusy := hc.acknowledged (hle (by omega))
  have hctrl := Channel.ctrl_of_fields (hc.wave (hle (by decide))) henable
  rw [hc.presc (hle (by decide))] at hctrl
  exact ⟨hctrl, Channel.syncbusy_of_fields hbusy (hc.drained (hle (by decide))), hper, hperb, hcc, hccb,
    hc.pin (hle (by decide)), Channel.pwmOut_of_cc_eq_zero hcc, hper ▸ hs.count c henable⟩

theorem Hsc.BringUp.clkctrl_of_last_row {b : Board} {h : Hsc} (hb : h.BringUp b) (hp : h.pinitState = 13) :
    h.clkctrl = 0b111 := by
  have hle {k : Nat} (hk : k ≤ 13) : k ≤ h.pinitState.toNat := hp ▸ hk
  have hgen : h.gclkEn = true := hb.generator (hle (by decide))
  have h0 : h.ch0.clkEn = true := (hb.chan .ch0).clock (hle (by decide))
  have h1 : h.ch1.clkEn = true := (hb.chan .ch1).clock (hle (by decide))
  rw [Hsc.clkctrl, hgen, h0, h1]
  rfl

/-- Settles O38: row 13 adds the mask and the response to what the invariant says of its start. -/
theorem bringUpNetEffect : Obligations.BringUpNetEffect := by
  intro s hb hs hp he
  obtain ⟨-, -, hlast⟩ := bringUpRowsEnable s he
  refine ⟨_, hlast hp, hb.clkctrl_of_last_row hp, rfl, rfl, rfl, rfl, rfl, s.afterEvent_ase, fun c => ?_⟩
  cases c with
  | ch0 => exact hb.chan_of_last_row hs hp .ch0
  | ch1 => exact hb.chan_of_last_row hs hp .ch1

/-! ## After reset -/

/-- No overflow pending, no bound to keep. -/
theorem State.prompt_of_idle {b : Board} {s : State} (h : s.hsc.intflag = false) : s.Prompt b :=
  fun hset => absurd hset (h ▸ Bool.false_ne_true)

theorem Hsc.reset_sound : Hsc.reset.Sound :=
  ⟨by decide, fun c hen => absurd hen (by rw [Hsc.reset_chan]; decide),
    fun _ hset => absurd hset (Hsc.not_settling_of_idle (Nat.zero_le _))⟩

/-- Settles O54: the registers are zero, the port is idle and nothing is pending. -/
theorem resetMeetsInvariants : Obligations.ResetMeetsInvariants :=
  ⟨⟨Ase.reset_sound _, Hsc.reset_sound⟩, Hsc.bringUp_of_idle (Nat.zero_le _),
    fun _ _ hp => Hsc.bringUp_of_idle (by rw [hp]; decide), State.prompt_of_idle rfl, fun _ _ => State.prompt_of_idle⟩

end Sys2Proof.Machine
end

section
/-! Disabled moves, hard sync end to end, a period of the waveform, and a period read back (R47, R147, R160, R175, R181,
R184; log 8, 11). -/

namespace Sys2Proof.Machine

/-! ## Moves that are not enabled (log 8) -/

theorem step_of_not_timerEnabled {s : State} {c : Chan} (he : s.nextEvent = .timer c)
    (hn : ¬ s.hsc.timerEnabled c = true) : step s = .next s.afterEvent := by
  simp only [step, move, he, timerMove, State.afterEvent_hsc, if_neg hn]

theorem step_of_not_handlerEnabled {s : State} (he : s.nextEvent = .handler) (hn : ¬ s.hsc.handlerEnabled = true) :
    step s = .next s.afterEvent := by
  simp only [step, move, he, handlerMove, State.afterEvent_hsc, if_neg hn]

theorem step_of_not_ackEnabled {s : State} {c : Chan} {k : AckKind} (he : s.nextEvent = .ack c k)
    (hn : ¬ s.hsc.ackEnabled c k = true) : step s = .next s.afterEvent := by
  simp only [step, move, he, ackMove, State.afterEvent_hsc, if_neg hn]

theorem step_of_no_command {s : State} (he : s.nextEvent = .host) (hp : s.hsc.pinitState = 0) (hc : s.env.cmds = []) :
    step s = .next s.afterEvent := by
  rw [step_of_host he]
  exact hostMove_of_no_command (by rw [portOpen_iff, State.afterEvent_hsc, hp]) (by rw [State.afterEvent_cmds, hc])

/-- Settles O43: each enabling condition is a conjunction, one of whose parts fails. -/
theorem disabledMovesChangeNothing : Obligations.DisabledMovesChangeNothing := by
  refine fun s => ⟨fun c he hoff => ?_, fun he hoff => ?_, fun c k he hoff => ?_, step_of_no_command, fun he => ?_⟩
  · refine step_of_not_timerEnabled he ?_
    rw [Hsc.timerEnabled_iff]
    rcases hoff with h | h | h <;> simp [h]
  · refine step_of_not_handlerEnabled he ?_
    rw [Hsc.handlerEnabled_iff]
    rcases hoff with h | h <;> simp [h]
  · refine step_of_not_ackEnabled he ?_
    rw [Hsc.ackEnabled_iff]
    rcases hoff with h | h | h <;> simp [h]
  · exact ⟨_, step_of_reset he, rfl, s.afterEvent_cmds⟩

/-! ## An overflow of channel 0 and its handler -/

/-- A move at the head of the schedule comes, unless it is a count of channel 1 (R176, R179). -/
theorem State.nextEvent_of_listed {s : State} {e : Event} {es : List Event} (hl : s.env.events = e :: es)
    (hne : e ≠ .timer .ch1) : s.nextEvent = e := by
  have hsched : s.scheduled = e := by simp only [State.scheduled, hl]
  rw [State.nextEvent, hsched]
  exact State.arbitrate_of_free (.inr (.inl hne))

/-- Settles O48: the overflow pends the interrupt, which the handler then serves. -/
theorem hardSyncRestartsChannelOne : Obligations.HardSyncRestartsChannelOne := by
  intro s es hl hn hle hen
  have hfirst := step_of_timerEnabled (State.nextEvent_of_listed hl (by decide)) hn
  rw [Hsc.tick_of_per_le (c := .ch0) hle, Hsc.overflow_ch0] at hfirst
  refine ⟨_, _, hfirst, step_of_handlerEnabled (State.nextEvent_of_listed (es := es) ?_ (by decide)) ?_, rfl, rfl, ?_⟩
  · exact (congrArg Env.events s.afterEvent_env).trans (by rw [hl]; rfl)
  · exact (Hsc.handlerEnabled_iff _).mpr ⟨rfl, hen⟩
  · rw [Hsc.takeOverflowInterrupt_eq]
    refine ⟨rfl, rfl, ?_⟩
    cases s.hsc.hardSync with
    | true => simp [Channel.restart_eq]
    | false => simp

/-! ## The waveform -/

theorem Hsc.tick_chan_self (h : Hsc) (c : Chan) : (h.tick c).chan c = (h.chan c).tick := by
  rw [Hsc.tick_eq]
  exact (Hsc.chan_congr rfl rfl c).trans (Hsc.onChan_chan_self ..)

/-- Ticks of one channel see that channel alone. -/
theorem Hsc.tick_iterate_chan (h : Hsc) (c : Chan) (k : Nat) :
    ((fun x : Hsc => x.tick c)^[k] h).chan c = Channel.tick^[k] (h.chan c) :=
  Function.Semiconj.iterate_right (f := fun x : Hsc => x.chan c) (fun x => x.tick_chan_self c) k h

/-- From count 0 the channel counts up to its period (R180; decision D17). -/
theorem Channel.tick_iterate_of_le {ch : Channel} (h0 : ch.count = 0) {k : Nat} (hk : k ≤ ch.per.toNat) :
    Channel.tick^[k] ch = { ch with count := BitVec.ofNat 32 k } := by
  induction k with
  | zero => rw [Function.iterate_zero, id_eq, show BitVec.ofNat 32 0 = ch.count from h0.symm]
  | succ k ih =>
    have hlt : BitVec.ofNat 32 k < ch.per := by bv_omega
    rw [Function.iterate_succ_apply', ih (by omega), Channel.tick_of_count_lt hlt, BitVec.ofNat_add]
    rfl

/-- Half of a word, compared with a count that fits it (R47, R184). -/
theorem ofNat_lt_half_iff {per : Word} {k : Nat} (hk : k ≤ per.toNat) :
    BitVec.ofNat 32 k < per >>> 1 ↔ k < per.toNat / 2 := by
  have hlt := per.isLt
  rw [BitVec.lt_def, BitVec.toNat_ofNat, BitVec.toNat_ushiftRight, Nat.shiftRight_one, Nat.mod_eq_of_lt (by omega)]

/-- Settles O51: the count is the number of ticks until it reaches the period, and the tick after that wraps it. -/
theorem halfDutyOverOnePeriod : Obligations.HalfDutyOverOnePeriod := by
  intro h c hn hwave hpin h0 hcc
  obtain ⟨hen, -⟩ := (h.timerEnabled_iff c).mp hn
  refine ⟨fun k hk => ?_, ?_⟩
  · rw [h.tick_iterate_chan, Channel.tick_iterate_of_le h0 hk]
    simp [Channel.pwmOut, hwave, hpin, hen, hcc, ofNat_lt_half_iff hk]
  · rw [h.tick_iterate_chan, Function.iterate_succ_apply', Channel.tick_iterate_of_le h0 le_rfl,
      Channel.tick_of_per_le (by simp)]
    rfl

/-! ## A programmed period, read back -/

/-- Settles O41: `PULSE_SET_PERIOD` writes the two buffers, which the two numbers name. -/
theorem periodReadsBack : Obligations.PeriodReadsBack := by
  intro period s
  have hset := exec_pulseSetPeriod_of_selected (ch := 0) (c := .ch0) rfl period s
  rw [Hsc.onChan, Channel.program_eq] at hset
  exact ⟨_, _, _, hset, exec_rdreg 0x33 _, rfl, exec_rdreg 0x35 _, rfl, rfl, rfl⟩

end Sys2Proof.Machine
end

section
/-! The two sub-blocks share nothing, and modes 0 to 3 render alike: the renderers read neither the HSC nor, in a frame
of modes 0 to 3, the mode (R3, R113). -/

namespace Sys2Proof.Machine

/-! ## What a change of the HSC and of the mode passes through -/

/-- The state with the HSC and the mode changed. -/
def State.swap (g : Hsc → Hsc) (f : Mode → Mode) (s : State) : State :=
  { s with hsc := g s.hsc, ase := { s.ase with mode := f s.ase.mode } }

section swap
variable (g : Hsc → Hsc) (f : Mode → Mode) (b : Board)

@[simp] theorem State.swap_env (s : State) : (s.swap g f).env = s.env := rfl
@[simp] theorem State.swap_phase (s : State) : (s.swap g f).ase.phase = s.ase.phase := rfl
@[simp] theorem State.swap_hueAcc (s : State) : (s.swap g f).ase.hueAcc = s.ase.hueAcc := rfl
@[simp] theorem State.swap_decayAt (s : State) (i : Nat) : (s.swap g f).ase.decayAt i = s.ase.decayAt i := rfl

theorem pxWrite_swap (i : Nat) (c : Word) (s : State) : (s.swap g f).pxWrite b i c = (s.pxWrite b i c).swap g f := by
  unfold State.pxWrite
  split <;> rfl

theorem afterDraw_swap (s : State) : (s.swap g f).afterDraw = s.afterDraw.swap g f := by
  cases hd : s.env.draws with
  | nil => simp only [State.afterDraw, State.swap, hd]
  | cons r rest => simp only [State.afterDraw, State.swap, hd]

theorem sparklePixel_swap (delta : Word) (i : Nat) (s : State) :
    sparklePixel b delta i (s.swap g f) = (sparklePixel b delta i s).swap g f := by
  simp only [sparklePixel, State.swap_env, State.swap_decayAt, State.swap_hueAcc, afterDraw_swap, pxWrite_swap]
  split <;> rfl

theorem forPixels_swap {body : Nat → State → State} (hbody : ∀ i s, body i (s.swap g f) = (body i s).swap g f)
    (s : State) : forPixels b body (s.swap g f) = (forPixels b body s).swap g f :=
  List.foldl_hom (State.swap g f) (fun s i => hbody i s)

theorem paint_swap (colour : Nat → Word) (s : State) :
    State.paint b colour (s.swap g f) = (State.paint b colour s).swap g f :=
  forPixels_swap g f b (fun i s => pxWrite_swap g f b i (colour i) s) s

theorem normalFrame_swap (delta : Word) (s : State) :
    sparkleOverlay b delta (normalRenderer b delta (s.swap g f)) =
      (sparkleOverlay b delta (normalRenderer b delta s)).swap g f := by
  have hnormal : normalRenderer b delta (s.swap g f) = (normalRenderer b delta s).swap g f :=
    paint_swap g f b (normalColour b (normalPhase s.ase.phase delta) (normalHueAcc s.ase.hueAcc delta))
      { s with ase := { s.ase with phase := normalPhase s.ase.phase delta, hueAcc := normalHueAcc s.ase.hueAcc delta } }
  rw [hnormal]
  exact forPixels_swap g f b (sparklePixel_swap g f b delta) _

theorem solidPair_swap (e : Bool) (i : Nat) (c : Word) (s : State) :
    (s.swap g f).solidPair b e i c = (s.solidPair b e i c).swap g f := by
  cases e with
  | true => simp only [State.solidPair, if_true, pxWrite_swap]
  | false => rfl

theorem tweakRenderer_swap (s : State) : tweakRenderer b (s.swap g f) = (tweakRenderer b s).swap g f := by
  unfold tweakRenderer
  simp only [paint_swap, solidPair_swap, pxWrite_swap]
  rfl

/-- The hue of a transition is that of the mode. -/
theorem transitionRenderer_swap (delta : Word) (s : State) (hm : f s.ase.mode = s.ase.mode) :
    transitionRenderer b delta (s.swap g f) = (transitionRenderer b delta s).swap g f := by
  have hpaint := paint_swap g f b
    (fun _ => b.hsv (transHue b s.ase.mode) 255 (transValue (transPhase s.ase.phase delta)))
    { s with ase := { s.ase with phase := transPhase s.ase.phase delta } }
  have hhue : transHue b (s.swap g f).ase.mode = transHue b s.ase.mode := congrArg _ hm
  simp only [transitionRenderer, State.swap_phase, hhue]
  split
  · exact congrArg (fun p : State => { p with ase := { p.ase with transitioning := false } }) hpaint
  · exact hpaint

/-- A frame of modes 0 to 3 does not read the mode (R113). -/
theorem renderFrame_swap_of_normal (delta : Word) (s : State) (htrans : s.ase.transitioning = false)
    (h4 : s.ase.mode ≠ .calibration) (h5 : s.ase.mode ≠ .flagTweak) (h4' : f s.ase.mode ≠ .calibration)
    (h5' : f s.ase.mode ≠ .flagTweak) : renderFrame b delta (s.swap g f) = (renderFrame b delta s).swap g f := by
  rw [renderFrame_normal b delta s htrans h4 h5, renderFrame_normal b delta (s.swap g f) htrans h4' h5',
    normalFrame_swap]

/-- No frame reads the HSC (R3). -/
theorem renderFrame_swap_of_mode (delta : Word) (s : State) (hm : f s.ase.mode = s.ase.mode) :
    renderFrame b delta (s.swap g f) = (renderFrame b delta s).swap g f := by
  cases htrans : s.ase.transitioning with
  | true =>
    rw [renderFrame_of_transitioning b delta s htrans, renderFrame_of_transitioning b delta (s.swap g f) htrans,
      transitionRenderer_swap g f b delta s hm]
  | false =>
    by_cases h4 : s.ase.mode = .calibration
    · rw [renderFrame_calibration b delta s htrans h4,
        renderFrame_calibration b delta (s.swap g f) htrans (hm.trans h4)]
      exact paint_swap g f b _ s
    · by_cases h5 : s.ase.mode = .flagTweak
      · rw [renderFrame_flagTweak b delta s htrans h5, renderFrame_flagTweak b delta (s.swap g f) htrans (hm.trans h5),
          tweakRenderer_swap]
      · exact renderFrame_swap_of_normal g f b delta s htrans h4 h5 (hm.trans_ne h4) (hm.trans_ne h5)

/-- The limiter and what stands around the frame read neither. -/
theorem animStepOn_swap (s : State)
    (hr : renderFrame b s.delta (s.based.swap g f) = (renderFrame b s.delta s.based).swap g f) :
    animStepOn b (s.swap g f) = (animStepOn b s).swap g f := by
  have heff : effectiveStep b (s.swap g f) = (effectiveStep b s).swap g f :=
    congrArg (fun u : State => u.flush.respond 1) hr
  have hdelta : (s.swap g f).delta = s.delta := rfl
  simp only [animStepOn, heff, hdelta]
  split <;> rfl

end swap

/-- Settles O19: the step under the other mode is the step with the mode changed afterwards. -/
theorem fourModesRenderAlike : Obligations.FourModesRenderAlike := by
  intro s t m htrans h4 h5 h4' h5' hx
  injection hx with hx
  subst hx
  exact congrArg Host.Outcome.next
    (animStepOn_swap id (fun _ => m) _ s (renderFrame_swap_of_normal _ _ _ _ s.based htrans h4 h5 h4' h5'))

/-! ## The commands -/

/-- An ASE command neither reads nor writes the HSC. -/
theorem exec_ase_command {i : Instr} {s t : State} (hi : i ∈ [.animInit, .animStep] ∨ (∃ m, i = .animSetMode m) ∨
      (∃ x, i = .tweakSetLfo x) ∨ (∃ x y, i = .tweakSetEn x y)) (hx : exec i s = .next t) (h : Hsc) :
    t.hsc = s.hsc ∧ exec i { s with hsc := h } = .next { t with hsc := h } := by
  simp only [List.mem_cons, List.not_mem_nil, or_false] at hi
  rcases hi with (rfl | rfl) | ⟨m, rfl⟩ | ⟨x, rfl⟩ | ⟨x, y, rfl⟩ <;> injection hx with hx <;> subst hx
  · exact ⟨rfl, rfl⟩
  · exact ⟨(animOnly_animStepOn _ s).hsc, congrArg Host.Outcome.next
      (animStepOn_swap (fun _ => h) id _ s (renderFrame_swap_of_mode _ _ _ _ s.based rfl))⟩
  · cases hm : Mode.ofCode m with
    | some mode => exact ⟨rfl, exec_animSetMode_of_ofCode hm _⟩
    | none => exact ⟨rfl, exec_animSetMode_of_none hm _⟩
  · exact ⟨rfl, rfl⟩
  · exact ⟨rfl, rfl⟩

/-- An HSC command neither reads nor writes the ASE. -/
theorem exec_hsc_command {i : Instr} {s t : State} (hi : i = .pulseInit ∨ (∃ c p, i = .pulseSetPeriod c p) ∨
      (∃ e, i = .pulseSetHardSync e)) (hx : exec i s = .next t) (a : Ase) :
    t.ase = s.ase ∧ exec i { s with ase := a } = .next { t with ase := a } := by
  rcases hi with rfl | ⟨ch, p, rfl⟩ | ⟨e, rfl⟩ <;> injection hx with hx <;> subst hx
  · exact ⟨rfl, rfl⟩
  · cases hc : selectedChan ch with
    | some c => exact ⟨rfl, exec_pulseSetPeriod_of_selected hc p _⟩
    | none => exact ⟨rfl, exec_pulseSetPeriod_of_none hc p _⟩
  · exact ⟨rfl, rfl⟩

/-! ## The other agents -/

/-- The schedule is read off the HSC and the ports. -/
theorem State.afterEvent_withAse (s : State) (a : Ase) :
    ({ s with ase := a } : State).afterEvent = { s.afterEvent with ase := a } := by
  cases hl : s.env.events with
  | nil => simp only [State.afterEvent, hl]; rfl
  | cons e es => simp only [State.afterEvent, hl]; rfl

/-- A tick, an acknowledge, the handler and a row of the bring-up neither read nor write the ASE. -/
theorem move_hsc_agent {e : Event} {s t : State} (hm : move e s = .next t) (a : Ase)
    (he : (∃ c, e = .timer c) ∨ (∃ c k, e = .ack c k) ∨ e = .handler ∨ (e = .host ∧ s.hsc.pinitState ≠ 0)) :
    t.ase = s.ase ∧ move e { s with ase := a } = .next { t with ase := a } := by
  rcases he with ⟨c, rfl⟩ | ⟨c, k, rfl⟩ | rfl | ⟨rfl, hp⟩
  · injection hm with hm
    subst hm
    simp only [move, timerMove]
    split <;> exact ⟨rfl, rfl⟩
  · injection hm with hm
    subst hm
    simp only [move, ackMove]
    split <;> exact ⟨rfl, rfl⟩
  · injection hm with hm
    subst hm
    simp only [move, handlerMove]
    split <;> exact ⟨rfl, rfl⟩
  · have hclosed : ¬ s.hsc.portOpen = true := by rwa [portOpen_iff]
    simp only [move, hostMove, if_neg hclosed] at hm ⊢
    injection hm with hm
    subst hm
    simp only [microStep, rowRespond]
    split
    · split <;> exact ⟨rfl, rfl⟩
    · exact ⟨rfl, rfl⟩

/-- Settles O60: the commands of the two sub-blocks, and the agents that serve the HSC alone. -/
theorem subBlocksShareNothing : Obligations.SubBlocksShareNothing := by
  refine ⟨fun i s t h hi hx => exec_ase_command hi hx h, fun i s t a hi hx => exec_hsc_command hi hx a,
    fun s t a hstep he => ?_⟩
  obtain ⟨hase, hmove⟩ := move_hsc_agent hstep a (by simpa using he)
  refine ⟨hase.trans s.afterEvent_ase, ?_⟩
  rw [step, State.afterEvent_withAse]
  exact hmove

end Sys2Proof.Machine
end

section
/-! Properties of the frames, on every block that can be built (R116, R118, R120, R122, R124, R127). -/

namespace Sys2Proof.Machine

/-! ## Calibration and tweak -/

/-- Settles O21: the odd pixels take the complement of the even brightness. -/
theorem calibrationPairsSumTo255 : Obligations.CalibrationPairsSumTo255 := by
  refine ⟨fun _ => rfl, fun b s hle htrans hmode => ?_⟩
  have hp := painted_calibration b s.env.now s.based
  refine ⟨calibrationValue b s.env.now, 255 - calibrationValue b s.env.now, ?_, fun i hi => ?_⟩
  · generalize calibrationValue b s.env.now = v
    bv_omega
  · rw [animStepOn_ase_of_le b s hle, renderFrame_calibration b _ s.based htrans hmode]
    exact (hp.px i).trans (if_pos hi)

/-- Settles O23: with both voices off the first four pixels keep the zeroes, and the last three share one colour. -/
theorem tweakPixelsDark : Obligations.TweakPixelsDark := by
  refine ⟨fun _ => rfl, fun b s hle htrans hmode hcastor hpollux => ?_⟩
  have hpx (i : Nat) (hi : i < b.nPixels) :
      (animStepOn b s).ase.pxAt i = if i < 4 then 0 else tweakColour b s.ase.tweakLfo := by
    have hcastor : s.based.ase.tweakCastor = false := hcastor
    have hpollux : s.based.ase.tweakPollux = false := hpollux
    rw [animStepOn_ase_of_le b s hle, renderFrame_flagTweak b _ s.based htrans hmode, tweakRenderer_px b _ i hi,
      hcastor, hpollux]
    by_cases h2 : i < 2
    · simp [h2, show i < 4 by omega]
    · simp [h2, State.based]
  exact ⟨fun i h4 hi => (hpx i hi).trans (if_pos h4), fun i j hi hin hj hjn => by
    rw [hpx i hin, hpx j hjn, if_neg hi.not_gt, if_neg hj.not_gt]⟩

/-! ## Transition -/

/-- From 32767 ticks on the increment is that of 32767 ticks (R13, R127). -/
theorem fxDiv_ticks_of_saturated {delta d q : Word} (hdelta : 32767 ≤ delta.toNat) (hd : 0 < d.toNat)
    (hd' : d.toNat ≤ 32767) (hq : q.toInt = ((min 2147483647 (32767 * 65536 / d.toNat) : Nat) : Int)) :
    fxDiv (fxFromUint delta) (fxFromUint d) = q := by
  apply BitVec.eq_of_toInt_eq
  rw [fxDiv_ticks delta d hd hd', Nat.min_eq_right hdelta, hq]

/-- Settles O24: the tick count is clamped before the division, and 1001 ticks advance `PHASE` by more than 1.0. -/
theorem largeDeltaSaturates : Obligations.LargeDeltaSaturates := by
  refine ⟨fun delta hdelta => ⟨fxDiv_ticks_of_saturated hdelta (by decide) (by decide) (by decide),
    fxDiv_ticks_of_saturated hdelta (by decide) (by decide) (by decide)⟩, fun s hle htrans hnonneg hticks => ?_⟩
  obtain ⟨t, hexec, hphase, hends, -⟩ := transitionFrame s hle htrans hnonneg
  refine ⟨t, hexec, ?_⟩
  rw [hends, decide_eq_false]
  omega

/-- Settles O25: the brightness is linear in `PHASE`, floored, and cut off at 0. -/
theorem transitionFadesOut : Obligations.TransitionFadesOut := by
  refine ⟨by decide, fun p q hp hpq => ?_, fun p hp => ?_⟩
  · have h1 := transValue_toNat p hp
    have h2 := transValue_toNat q (hp.trans hpq)
    omega
  · have h1 := transValue_toNat p (by omega)
    apply BitVec.eq_of_toNat_eq
    have h0 : (0 : Byte).toNat = 0 := rfl
    omega

/-! ## Normal rendering and its sparkles -/

/-- The sine adds to the floor of 20 and stays within a byte (R117, R118). -/
theorem normalValue_floor (b : Board) (phase : Fix16) (i : Nat) : 20 ≤ (normalValue b phase i).toNat := by
  have h235 : (235 : Word).toNat = 235 := rfl
  have hsine := b.sine_range (fxAdd phase (pixelOffset b i))
  rw [normalValue, fxMul_sine b _ 235 (by decide), h235, byteOf, show (20 : Int) = ((20 : Nat) : Int) from rfl,
    ← Int.natCast_add, BitVec.ofInt_natCast, BitVec.toNat_ofNat]
  have hquot : 235 * (b.sineNorm (fxAdd phase (pixelOffset b i))).toNat / 65536 ≤ 235 := by omega
  rw [Nat.mod_eq_of_lt (by omega)]
  exact Nat.le_add_right 20 _

theorem normalColour_ne_zero {b : Board} (hb : b.HsvNonblack) (phase : Fix16) (hueAcc : Word) (i : Nat) :
    normalColour b phase hueAcc i ≠ 0 := by
  have hfloor := normalValue_floor b phase i
  refine hb _ _ _ fun hzero => ?_
  rw [hzero] at hfloor
  exact absurd hfloor (by decide)

/-- Settles O28: a pixel holds its normal colour or that of a sparkle, whose brightness is 127. -/
theorem normalBrightnessHasFloor : Obligations.NormalBrightnessHasFloor := by
  refine ⟨fun b phase i => ⟨normalValue_floor b phase i, fun hb hueAcc => normalColour_ne_zero hb phase hueAcc i⟩,
    fun _ => rfl, fun b s hb hle htrans h4 h5 i hi => ?_⟩
  have hf := normalFrame_spec b s.delta s.based
  rw [animStepOn_ase_of_le b s hle, renderFrame_normal b _ s.based htrans h4 h5, hf.px i, if_pos hi]
  split
  · exact normalColour_ne_zero hb _ _ i
  · exact hb _ _ _ (by decide)

/-- `k` decrements are one of `k` times the size, since the floor absorbs what is left (R120). -/
theorem decayedBy_iterate_toNat (delta : Word) (d : Byte) (k : Nat) :
    ((decayedBy delta)^[k] d).toNat = d.toNat - k * (delta.toNat / 4) := by
  induction k with
  | zero => simp
  | succ k ih => rw [Function.iterate_succ_apply', decayedBy_toNat, ih, Nat.succ_mul, Nat.sub_sub]

/-- Settles O29: 255 decrements of at least 1 exhaust a byte. -/
theorem decayReachesZero : Obligations.DecayReachesZero := by
  refine fun delta d k => ⟨decayedBy_iterate_toNat delta d k, fun hdelta hk => ?_⟩
  have hd := d.isLt
  have hall : k ≤ k * (delta.toNat / 4) := Nat.le_mul_of_pos_right k (by omega)
  apply BitVec.eq_of_toNat_eq
  rw [decayedBy_iterate_toNat]
  exact Nat.sub_eq_zero_of_le (by omega)

end Sys2Proof.Machine
end

section
/-! Runs of `ANIM_STEP` (R116, R118, R125). -/

namespace Sys2Proof.Machine

/-! ## One step of a run -/

theorem animRun_cons (t : Word) (ts : List Word) (s : State) :
    animRun (t :: ts) s = animRun ts (animStepOn Config.board (nowMove t s)) := rfl

theorem effectiveDeltas_cons_of_lt {last t : Word} (h : t - last < Config.board.animInterval) (ts : List Word) :
    effectiveDeltas last (t :: ts) = effectiveDeltas last ts := if_pos h

theorem effectiveDeltas_cons_of_le {last t : Word} (h : Config.board.animInterval ≤ t - last) (ts : List Word) :
    effectiveDeltas last (t :: ts) = (t - last).toNat :: effectiveDeltas t ts := if_neg (BitVec.not_lt.mpr h)

/-- An effective step spans at least one tick (R9). -/
theorem delta_pos_of_le {x : Word} (h : Config.board.animInterval ≤ x) : 1 ≤ x.toNat :=
  Config.board.animInterval_pos.trans h

/-! ## A transition comes to an end (R116, R125) -/

/-- How far a transition is from its end: over already, or with enough effective steps ahead, each of which advances
`PHASE` by at least 65. -/
def State.EndsWithin (s : State) (n : Nat) : Prop :=
  s.ase.transitioning = false ∨ (0 ≤ s.ase.phase.toInt ∧ 0 < n ∧ 65536 < s.ase.phase.toInt + 65 * n)

/-- An advance of at least one tick is one of at least 65, short of saturation (R115). -/
theorem transPhase_advances {phase : Fix16} {delta : Word} (h : 0 ≤ phase.toInt) (hdelta : 1 ≤ delta.toNat) :
    min 2147483647 (phase.toInt + 65) ≤ (transPhase phase delta).toInt := by
  rw [transPhase_toInt _ _ h]
  omega

theorem animRun_endsWithin (ts : List Word) (s : State)
    (hs : s.EndsWithin (effectiveDeltas s.ase.lastUpdate ts).length) :
    ∃ t, animRun ts s = .next t ∧ t.ase.transitioning = false := by
  induction ts generalizing s with
  | nil => exact ⟨s, rfl, hs.resolve_right fun ⟨_, hpos, _⟩ => absurd hpos (lt_irrefl 0)⟩
  | cons now ts ih =>
    rw [animRun_cons]
    refine ih _ ?_
    have hc := animStepOn_cases Config.board (nowMove now s)
    generalize animStepOn Config.board (nowMove now s) = u at hc
    cases hc with
    | rejected hlt ase =>
      rw [effectiveDeltas_cons_of_lt (last := s.ase.lastUpdate) (t := now) hlt] at hs
      rw [State.EndsWithin, ase]
      exact hs
    | normal u' hle htrans _ _ frame ase =>
      refine .inl ?_
      rw [ase, frame.ase]
      exact htrans
    | pixels hle htrans _ ase =>
      refine .inl ?_
      rw [ase]
      exact htrans
    | transition hle htrans phase ends ase =>
      rw [effectiveDeltas_cons_of_le (last := s.ase.lastUpdate) (t := now) hle, List.length_cons] at hs
      obtain ⟨hnonneg, -, hend⟩ := hs.resolve_left (by rw [show s.ase.transitioning = true from htrans]; decide)
      have hadv := phase ▸ transPhase_advances hnonneg (delta_pos_of_le hle)
      have hlast : u.ase.lastUpdate = now := by rw [ase]; rfl
      rw [State.EndsWithin, ends, hlast]
      by_cases hover : u.ase.phase.toInt ≤ 65536
      · exact .inr ⟨by omega, by omega, by omega⟩
      · exact .inl (decide_eq_false hover)

/-- Settles O26: 1009 advances of 65 exceed 1.0. -/
theorem transitionEndsWithin1009Steps : Obligations.TransitionEndsWithin1009Steps :=
  fun ts s hnonneg hsteps => animRun_endsWithin ts s (.inr ⟨hnonneg, by omega, by omega⟩)

/-! ## The hue accumulator (R118) -/

/-- Settles O27: each effective step adds five times its delta, modulo 65536, and stays in normal rendering. -/
theorem hueIsFiveTimesTheDeltas : Obligations.HueIsFiveTimesTheDeltas := by
  intro ts s htrans h4 h5 hhue
  induction ts generalizing s with
  | nil => exact ⟨s, rfl, by simp only [effectiveDeltas, List.sum_nil]; omega⟩
  | cons now ts ih =>
    rw [animRun_cons]
    have hc := animStepOn_cases Config.board (nowMove now s)
    generalize animStepOn Config.board (nowMove now s) = u at hc
    cases hc with
    | rejected hlt ase =>
      have ase : u.ase = s.ase := ase
      rw [effectiveDeltas_cons_of_lt (last := s.ase.lastUpdate) (t := now) hlt]
      rw [← ase] at htrans h4 h5 hhue ⊢
      exact ih u htrans h4 h5 hhue
    | transition _ ht => exact absurd ht (by simp [nowMove, htrans])
    | pixels _ _ hmode => exact absurd hmode (not_or.mpr ⟨h4, h5⟩)
    | normal u' hle _ _ _ frame ase =>
      have hadd : u.ase.hueAcc.toNat = (s.ase.hueAcc.toNat + 5 * (now - s.ase.lastUpdate).toNat) % 65536 := by
        rw [ase, frame.hueAcc, normalHueAcc_toNat]
        rfl
      have hlast : u.ase.lastUpdate = now := by rw [ase, frame.ase]; rfl
      have hmode : u.ase.mode = s.ase.mode := by rw [ase, frame.ase]; rfl
      have hoff : u.ase.transitioning = false := by rw [ase, frame.ase]; exact htrans
      obtain ⟨t, hrun, hsum⟩ := ih u hoff (hmode ▸ h4) (hmode ▸ h5) (by omega)
      refine ⟨t, hrun, ?_⟩
      rw [effectiveDeltas_cons_of_le (last := s.ase.lastUpdate) (t := now) hle, List.sum_cons, hsum, hlast, hadd]
      omega

end Sys2Proof.Machine
end

section
/-! Who writes each register of the ASE, and what raises a decay (R22, R31, R126). -/

namespace Sys2Proof.Machine

/-- The draws to come are those of the words in store and of the count of free ones. -/
theorem Env.drawAt_congr {e e' : Env} (hd : e'.draws = e.draws) (hk : e'.drawn = e.drawn) (i : Nat) :
    e'.drawAt i = e.drawAt i := by
  rw [Env.drawAt, Env.drawAt, hd, hk]

/-- Only the trigger of the overlay raises a decay (R119). -/
theorem NormalFrame.decay_le {b : Board} {delta : Word} {s t : State} (h : NormalFrame b delta s t) (i : Nat) :
    (t.ase.decayAt i).toNat ≤ (s.ase.decayAt i).toNat ∨ (i < b.nPixels ∧ (s.env.drawAt i).toNat % 400 = 0) := by
  rw [h.decay]
  by_cases hi : i < b.nPixels
  · by_cases htrigger : (s.env.drawAt i).toNat % 400 = 0
    · exact .inr ⟨hi, htrigger⟩
    · rw [if_pos hi, overlayDecay_eq, if_neg htrigger, decayedBy_toNat]
      exact .inl (Nat.sub_le _ _)
  · rw [if_neg hi]
    exact .inl le_rfl

/-- Settles O30: no command but `ANIM_STEP` touches a decay, and of its frames only that of modes 0 to 3. -/
theorem decayRisesOnlyByTrigger : Obligations.DecayRisesOnlyByTrigger := by
  intro s t i hstep
  cases step_ase hstep with
  | same h => exact .inl (by rw [h])
  | mode _ _ _ h | init _ h | lfo _ _ h | enables _ _ _ h => exact .inl (by rw [h]; exact le_rfl)
  | reset _ h => exact .inl (by rw [h, Ase.reset_decayAt]; exact Nat.zero_le _)
  | frame s' hr ha _ hd hk _ h =>
    subst h
    have hdraw := Env.drawAt_congr hd hk i
    cases animStepOn_cases Config.board s' with
    | rejected _ ase => exact .inl (by rw [ase, ha])
    | transition _ _ _ _ ase => exact .inl (by rw [ase, ← ha]; exact le_rfl)
    | pixels _ _ _ ase => exact .inl (by rw [ase, ← ha]; exact le_rfl)
    | normal u _ htrans h4 h5 frame ase =>
      rw [ase, ← ha, ← hdraw]
      exact (frame.decay_le i).imp_right fun ⟨hi, htrigger⟩ => ⟨hr, htrans, h4, h5, hi, htrigger⟩

/-- Settles O58: the commands one by one, and `ANIM_STEP` by the frame it renders. -/
theorem aseRegisterWriters : Obligations.AseRegisterWriters := by
  intro s t hstep hne
  cases step_ase hstep with
  | reset he => exact absurd he hne
  | same h ho => simp [h, ho]
  | mode m _ hr h ho => simp [h, ho, Ase.enterMode, show ∃ m, s.Runs (.animSetMode m) from ⟨m, hr⟩]
  | init hr h ho => simp [h, ho, hr]
  | lfo x hr h ho => simp [h, ho, show ∃ x, s.Runs (.tweakSetLfo x) from ⟨x, hr⟩]
  | enables x y hr h ho => simp [-Bool.exists_bool, h, ho, show ∃ x y, s.Runs (.tweakSetEn x y) from ⟨x, y, hr⟩]
  | frame s' hr ha _ _ _ _ h =>
    subst h
    rw [← ha]
    have hc := animStepOn_cases Config.board s'
    generalize animStepOn Config.board s' = t at hc
    cases hc with
    | rejected _ ase => simp [ase, hr]
    | transition _ htrans _ _ ase => rw [ase]; simp [hr, htrans]
    | pixels _ _ _ ase => rw [ase]; simp [hr]
    | normal u _ htrans h4 h5 frame ase => rw [ase, frame.ase]; simp [hr, htrans, h4, h5, State.based]

end Sys2Proof.Machine
end
